-- ==== Sys2Proof/Word.lean ====
section
/-! DEFINITION. The word types of the machine (00_scope.md R3, R6). -/

namespace Sys2Proof

/-- A memory byte or the content of a general register (00_scope.md R3: data width 8). -/
abbrev Byte := BitVec 8

/-- A 16-bit value: I, PC, a call-stack entry, an instruction value (00_scope.md R3). -/
abbrev Word := BitVec 16

/-- A register number, the content of an X or Y field (30_encoding.md R61). -/
abbrev Reg := BitVec 4

/-- A 12-bit address, the content of an NNN field (30_encoding.md R61). -/
abbrev Addr12 := BitVec 12

/-- VF, the flag register V[0xF] (10_state.md R12). -/
abbrev vf : Reg := 0xF#4

/-- V0, which jump-offset adds to its target (41_control_flow.md R107). -/
abbrev v0 : Reg := 0x0#4

end Sys2Proof
end

