-- ==== Sys2Proof/Syntax.lean ====
section
/-! DEFINITION. The 34 instructions of 30_encoding.md R65, one constructor per row of spec/opcode_table.json,
in the table's order. Each operand has exactly the width of its field (R61). -/

namespace Sys2Proof

/-- An instruction with its operands. The docstring of a constructor gives its pattern and its rule. -/
inductive Instr where
  /-- 00E0 clear-screen (44_display.md R160). -/
  | clearScreen
  /-- 00EE return (41_control_flow.md R100). -/
  | ret
  /-- 1NNN jump NNN (R101). -/
  | jump (nnn : Addr12)
  /-- 2NNN call NNN (R102). -/
  | call (nnn : Addr12)
  /-- 3XNN skip-if-equal X,NN (R103). -/
  | skipIfEqual (x : Reg) (nn : Byte)
  /-- 4XNN skip-if-not-equal X,NN (R104). -/
  | skipIfNotEqual (x : Reg) (nn : Byte)
  /-- 5XY0 skip-if-reg-equal X,Y (R105). -/
  | skipIfRegEqual (x y : Reg)
  /-- 6XNN set X,NN (42_alu.md R120). -/
  | setImm (x : Reg) (nn : Byte)
  /-- 7XNN add X,NN (R121). -/
  | addImm (x : Reg) (nn : Byte)
  /-- 8XY0 set X,Y (R122). -/
  | setReg (x y : Reg)
  /-- 8XY1 or X,Y (R123). -/
  | orReg (x y : Reg)
  /-- 8XY2 and X,Y (R124). -/
  | andReg (x y : Reg)
  /-- 8XY3 xor X,Y (R125). -/
  | xorReg (x y : Reg)
  /-- 8XY4 add X,Y (R126). -/
  | addReg (x y : Reg)
  /-- 8XY5 sub X,Y (R127). -/
  | subReg (x y : Reg)
  /-- 8XY6 shift-right X (R128); `y` is decoded and ignored (30_encoding.md R67). -/
  | shiftRight (x y : Reg)
  /-- 8XY7 subn X,Y (R129). -/
  | subnReg (x y : Reg)
  /-- 8XYE shift-left X (R130); `y` is decoded and ignored (30_encoding.md R67). -/
  | shiftLeft (x y : Reg)
  /-- 9XY0 skip-if-reg-not-equal X,Y (R106). -/
  | skipIfRegNotEqual (x y : Reg)
  /-- ANNN set-index NNN (43_index_memory.md R140). -/
  | setIndex (nnn : Addr12)
  /-- BNNN jump-offset NNN (41_control_flow.md R107). -/
  | jumpOffset (nnn : Addr12)
  /-- CXNN random X,NN (42_alu.md R131). -/
  | random (x : Reg) (nn : Byte)
  /-- DXYN draw X,Y,N (44_display.md R161). -/
  | draw (x y : Reg) (n : BitVec 4)
  /-- EX9E skip-if-key-pressed X (45_keypad_timers.md R170). -/
  | skipIfKeyPressed (x : Reg)
  /-- EXA1 skip-if-key-not-pressed X (R171). -/
  | skipIfKeyNotPressed (x : Reg)
  /-- FX07 get-delay X (R172). -/
  | getDelay (x : Reg)
  /-- FX0A wait-for-key X (R173). -/
  | waitForKey (x : Reg)
  /-- FX15 set-delay X (R174). -/
  | setDelay (x : Reg)
  /-- FX18 set-sound X (R175). -/
  | setSound (x : Reg)
  /-- FX1E add-to-index X (43_index_memory.md R141). -/
  | addToIndex (x : Reg)
  /-- FX29 load-font-address X (R142). -/
  | loadFontAddress (x : Reg)
  /-- FX33 store-bcd X (R143). -/
  | storeBcd (x : Reg)
  /-- FX55 store-registers X (R144); `x` is the number of the last register. -/
  | storeRegisters (x : Reg)
  /-- FX65 load-registers X (R145); `x` is the number of the last register. -/
  | loadRegisters (x : Reg)
  deriving DecidableEq, Repr

end Sys2Proof
end

