-- ==== Sys2Proof/WellFormed.lean ====
section
/-! DEFINITION. The opcode map of 30_encoding.md R65 as the table the spec prints, and well-formedness by it: an instruction
value is well-formed when it matches a row of the map (R64), and an instruction when it fits its own row.
The operand types of `Instr` admit exactly the values of their fields, so every `Instr` fits; the check that can fail is
the one on instruction values. -/

namespace Sys2Proof

/-- The six formats of 30_encoding.md R62. -/
inductive Format where
  | fixed | nnn | xnn | xy | xyn | x
  deriving DecidableEq, Repr

/-- One row of the opcode map: `op` selects it when `op &&& mask = value` (30_encoding.md R64). -/
structure OpcodeRow where
  name : String
  mask : Word
  value : Word
  format : Format
  deriving DecidableEq, Repr

/-- "An instruction value selects the handler of the one row … whose fixed bits it matches" (30_encoding.md R64). -/
def OpcodeRow.selects (r : OpcodeRow) (op : Word) : Bool := op &&& r.mask == r.value

/-- The table of 30_encoding.md R65: the row of each instruction, named as spec/opcode_table.json names it.
PRESUMED (log 10): the spec marks the numbers other than those of families 6 and 7 as general knowledge (D1). Unsafe. -/
def Instr.row : Instr → OpcodeRow
  | .clearScreen => ⟨"clear-screen", 0xFFFF, 0x00E0, .fixed⟩
  | .ret => ⟨"return", 0xFFFF, 0x00EE, .fixed⟩
  | .jump _ => ⟨"jump_NNN", 0xF000, 0x1000, .nnn⟩
  | .call _ => ⟨"call_NNN", 0xF000, 0x2000, .nnn⟩
  | .skipIfEqual _ _ => ⟨"skip-if-equal_X_NN", 0xF000, 0x3000, .xnn⟩
  | .skipIfNotEqual _ _ => ⟨"skip-if-not-equal_X_NN", 0xF000, 0x4000, .xnn⟩
  | .skipIfRegEqual _ _ => ⟨"skip-if-reg-equal_X_Y", 0xF00F, 0x5000, .xy⟩
  | .setImm _ _ => ⟨"set_X_NN", 0xF000, 0x6000, .xnn⟩
  | .addImm _ _ => ⟨"add_X_NN", 0xF000, 0x7000, .xnn⟩
  | .setReg _ _ => ⟨"set_X_Y", 0xF00F, 0x8000, .xy⟩
  | .orReg _ _ => ⟨"or_X_Y", 0xF00F, 0x8001, .xy⟩
  | .andReg _ _ => ⟨"and_X_Y", 0xF00F, 0x8002, .xy⟩
  | .xorReg _ _ => ⟨"xor_X_Y", 0xF00F, 0x8003, .xy⟩
  | .addReg _ _ => ⟨"add_X_Y", 0xF00F, 0x8004, .xy⟩
  | .subReg _ _ => ⟨"sub_X_Y", 0xF00F, 0x8005, .xy⟩
  | .shiftRight _ _ => ⟨"shift-right_X", 0xF00F, 0x8006, .xy⟩
  | .subnReg _ _ => ⟨"subn_X_Y", 0xF00F, 0x8007, .xy⟩
  | .shiftLeft _ _ => ⟨"shift-left_X", 0xF00F, 0x800E, .xy⟩
  | .skipIfRegNotEqual _ _ => ⟨"skip-if-reg-not-equal_X_Y", 0xF00F, 0x9000, .xy⟩
  | .setIndex _ => ⟨"set-index_NNN", 0xF000, 0xA000, .nnn⟩
  | .jumpOffset _ => ⟨"jump-offset_NNN", 0xF000, 0xB000, .nnn⟩
  | .random _ _ => ⟨"random_X_NN", 0xF000, 0xC000, .xnn⟩
  | .draw _ _ _ => ⟨"draw_X_Y_N", 0xF000, 0xD000, .xyn⟩
  | .skipIfKeyPressed _ => ⟨"skip-if-key-pressed_X", 0xF0FF, 0xE09E, .x⟩
  | .skipIfKeyNotPressed _ => ⟨"skip-if-key-not-pressed_X", 0xF0FF, 0xE0A1, .x⟩
  | .getDelay _ => ⟨"get-delay_X", 0xF0FF, 0xF007, .x⟩
  | .waitForKey _ => ⟨"wait-for-key_X", 0xF0FF, 0xF00A, .x⟩
  | .setDelay _ => ⟨"set-delay_X", 0xF0FF, 0xF015, .x⟩
  | .setSound _ => ⟨"set-sound_X", 0xF0FF, 0xF018, .x⟩
  | .addToIndex _ => ⟨"add-to-index_X", 0xF0FF, 0xF01E, .x⟩
  | .loadFontAddress _ => ⟨"load-font-address_X", 0xF0FF, 0xF029, .x⟩
  | .storeBcd _ => ⟨"store-bcd_X", 0xF0FF, 0xF033, .x⟩
  | .storeRegisters _ => ⟨"store-registers_X", 0xF0FF, 0xF055, .x⟩
  | .loadRegisters _ => ⟨"load-registers_X", 0xF0FF, 0xF065, .x⟩

/-- The opcode map: the 34 rows of 30_encoding.md R65 in the order of the table. -/
def opcodeMap : List OpcodeRow :=
  [ Instr.clearScreen, .ret, .jump 0, .call 0, .skipIfEqual 0 0, .skipIfNotEqual 0 0, .skipIfRegEqual 0 0, .setImm 0 0,
    .addImm 0 0, .setReg 0 0, .orReg 0 0, .andReg 0 0, .xorReg 0 0, .addReg 0 0, .subReg 0 0, .shiftRight 0 0,
    .subnReg 0 0, .shiftLeft 0 0, .skipIfRegNotEqual 0 0, .setIndex 0, .jumpOffset 0, .random 0 0, .draw 0 0 0,
    .skipIfKeyPressed 0, .skipIfKeyNotPressed 0, .getDelay 0, .waitForKey 0, .setDelay 0, .setSound 0, .addToIndex 0,
    .loadFontAddress 0, .storeBcd 0, .storeRegisters 0, .loadRegisters 0 ].map Instr.row

/-- A known instruction value: it matches a row of the map (30_encoding.md R64). The others are the unknown
instructions of R66. -/
def WellFormedWord (op : Word) : Bool := opcodeMap.any (·.selects op)

/-- An instruction is well-formed when its row stands in the map; its operands fit by their types. -/
def WellFormed (i : Instr) : Bool := decide (i.row ∈ opcodeMap)

end Sys2Proof
end

