-- ==== Sys2Proof/Decode.lean ====
section
/-! DEFINITION. The fields of an instruction value, the decoder and the encoder (30_encoding.md R60 to R68). -/

namespace Sys2Proof

/-- F, `op[15:12]` (30_encoding.md R61). -/
def fieldF (op : Word) : BitVec 4 := op.extractLsb' 12 4

/-- X, `op[11:8]`. -/
def fieldX (op : Word) : Reg := op.extractLsb' 8 4

/-- Y, `op[7:4]`. -/
def fieldY (op : Word) : Reg := op.extractLsb' 4 4

/-- N, `op[3:0]`. PRESUMED by the spec (log 10, D2). -/
def fieldN (op : Word) : BitVec 4 := op.extractLsb' 0 4

/-- NN, `op[7:0]`. -/
def fieldNN (op : Word) : Byte := op.extractLsb' 0 8

/-- NNN, `op[11:0]`. PRESUMED by the spec (log 10, D2). -/
def fieldNNN (op : Word) : Addr12 := op.extractLsb' 0 12

/-- Secondary dispatch of family 0 "on the whole low 12 bits" (30_encoding.md R64). -/
def decodeFamily0 (op : Word) : Option Instr :=
  if fieldNNN op = 0x0E0#12 then some .clearScreen
  else if fieldNNN op = 0x0EE#12 then some .ret
  else none

/-- Secondary dispatch of family 8 on the low nibble (30_encoding.md R64). -/
def decodeFamily8 (op : Word) : Option Instr :=
  if fieldN op = 0x0#4 then some (.setReg (fieldX op) (fieldY op))
  else if fieldN op = 0x1#4 then some (.orReg (fieldX op) (fieldY op))
  else if fieldN op = 0x2#4 then some (.andReg (fieldX op) (fieldY op))
  else if fieldN op = 0x3#4 then some (.xorReg (fieldX op) (fieldY op))
  else if fieldN op = 0x4#4 then some (.addReg (fieldX op) (fieldY op))
  else if fieldN op = 0x5#4 then some (.subReg (fieldX op) (fieldY op))
  else if fieldN op = 0x6#4 then some (.shiftRight (fieldX op) (fieldY op))
  else if fieldN op = 0x7#4 then some (.subnReg (fieldX op) (fieldY op))
  else if fieldN op = 0xE#4 then some (.shiftLeft (fieldX op) (fieldY op))
  else none

/-- Secondary dispatch of family E on the low byte (30_encoding.md R64). -/
def decodeFamilyE (op : Word) : Option Instr :=
  if fieldNN op = 0x9E#8 then some (.skipIfKeyPressed (fieldX op))
  else if fieldNN op = 0xA1#8 then some (.skipIfKeyNotPressed (fieldX op))
  else none

/-- Secondary dispatch of family F on the low byte (30_encoding.md R64). -/
def decodeFamilyF (op : Word) : Option Instr :=
  if fieldNN op = 0x07#8 then some (.getDelay (fieldX op))
  else if fieldNN op = 0x0A#8 then some (.waitForKey (fieldX op))
  else if fieldNN op = 0x15#8 then some (.setDelay (fieldX op))
  else if fieldNN op = 0x18#8 then some (.setSound (fieldX op))
  else if fieldNN op = 0x1E#8 then some (.addToIndex (fieldX op))
  else if fieldNN op = 0x29#8 then some (.loadFontAddress (fieldX op))
  else if fieldNN op = 0x33#8 then some (.storeBcd (fieldX op))
  else if fieldNN op = 0x55#8 then some (.storeRegisters (fieldX op))
  else if fieldNN op = 0x65#8 then some (.loadRegisters (fieldX op))
  else none

/-- Decode and dispatch of an instruction value (40_cycle.md R83, R84; 30_encoding.md R64): the instruction of the one row
whose fixed bits it matches, every fixed bit exactly (D3); `none` for an unknown instruction (R66). -/
def decodeWord (op : Word) : Option Instr :=
  if fieldF op = 0x0#4 then decodeFamily0 op
  else if fieldF op = 0x1#4 then some (.jump (fieldNNN op))
  else if fieldF op = 0x2#4 then some (.call (fieldNNN op))
  else if fieldF op = 0x3#4 then some (.skipIfEqual (fieldX op) (fieldNN op))
  else if fieldF op = 0x4#4 then some (.skipIfNotEqual (fieldX op) (fieldNN op))
  else if fieldF op = 0x5#4 then (if fieldN op = 0x0#4 then some (.skipIfRegEqual (fieldX op) (fieldY op)) else none)
  else if fieldF op = 0x6#4 then some (.setImm (fieldX op) (fieldNN op))
  else if fieldF op = 0x7#4 then some (.addImm (fieldX op) (fieldNN op))
  else if fieldF op = 0x8#4 then decodeFamily8 op
  else if fieldF op = 0x9#4 then (if fieldN op = 0x0#4 then some (.skipIfRegNotEqual (fieldX op) (fieldY op)) else none)
  else if fieldF op = 0xA#4 then some (.setIndex (fieldNNN op))
  else if fieldF op = 0xB#4 then some (.jumpOffset (fieldNNN op))
  else if fieldF op = 0xC#4 then some (.random (fieldX op) (fieldNN op))
  else if fieldF op = 0xD#4 then some (.draw (fieldX op) (fieldY op) (fieldN op))
  else if fieldF op = 0xE#4 then decodeFamilyE op
  else decodeFamilyF op

/-- Why a byte sequence gives no instruction. -/
inductive DecodeError where
  /-- Fewer than the two bytes of an instruction (30_encoding.md R60). -/
  | truncated
  /-- The instruction value matches no row of the map (30_encoding.md R66). The step makes it a no-op (40_cycle.md R87). -/
  | unknownInstruction (op : Word)
  deriving DecidableEq, Repr

/-- The 16-bit value of two consecutive bytes: "first byte is the high-order byte" (20_memory.md R43). -/
def wordOfBytes (first second : Byte) : Word := first ++ second

/-- The first byte of an instruction in memory, `op[15:8]` (30_encoding.md R60). -/
def firstByte (op : Word) : Byte := op.extractLsb' 8 8

/-- The second byte of an instruction in memory, `op[7:0]`. -/
def secondByte (op : Word) : Byte := op.extractLsb' 0 8

/-- Decode the instruction at the front of a byte sequence; every instruction takes two bytes (30_encoding.md R60, R68). -/
def decode : List Byte → Except DecodeError (Instr × List Byte)
  | first :: second :: rest =>
    match decodeWord (wordOfBytes first second) with
    | some i => .ok (i, rest)
    | none => .error (.unknownInstruction (wordOfBytes first second))
  | _ => .error .truncated

/-- The instruction value of an instruction, written from the formats of 30_encoding.md R62 and the numbers of R65. -/
def encode : Instr → Word
  | .clearScreen => 0x00E0#16
  | .ret => 0x00EE#16
  | .jump nnn => 0x1#4 ++ nnn
  | .call nnn => 0x2#4 ++ nnn
  | .skipIfEqual x nn => 0x3#4 ++ x ++ nn
  | .skipIfNotEqual x nn => 0x4#4 ++ x ++ nn
  | .skipIfRegEqual x y => 0x5#4 ++ x ++ y ++ 0x0#4
  | .setImm x nn => 0x6#4 ++ x ++ nn
  | .addImm x nn => 0x7#4 ++ x ++ nn
  | .setReg x y => 0x8#4 ++ x ++ y ++ 0x0#4
  | .orReg x y => 0x8#4 ++ x ++ y ++ 0x1#4
  | .andReg x y => 0x8#4 ++ x ++ y ++ 0x2#4
  | .xorReg x y => 0x8#4 ++ x ++ y ++ 0x3#4
  | .addReg x y => 0x8#4 ++ x ++ y ++ 0x4#4
  | .subReg x y => 0x8#4 ++ x ++ y ++ 0x5#4
  | .shiftRight x y => 0x8#4 ++ x ++ y ++ 0x6#4
  | .subnReg x y => 0x8#4 ++ x ++ y ++ 0x7#4
  | .shiftLeft x y => 0x8#4 ++ x ++ y ++ 0xE#4
  | .skipIfRegNotEqual x y => 0x9#4 ++ x ++ y ++ 0x0#4
  | .setIndex nnn => 0xA#4 ++ nnn
  | .jumpOffset nnn => 0xB#4 ++ nnn
  | .random x nn => 0xC#4 ++ x ++ nn
  | .draw x y n => 0xD#4 ++ x ++ y ++ n
  | .skipIfKeyPressed x => 0xE#4 ++ x ++ 0x9E#8
  | .skipIfKeyNotPressed x => 0xE#4 ++ x ++ 0xA1#8
  | .getDelay x => 0xF#4 ++ x ++ 0x07#8
  | .waitForKey x => 0xF#4 ++ x ++ 0x0A#8
  | .setDelay x => 0xF#4 ++ x ++ 0x15#8
  | .setSound x => 0xF#4 ++ x ++ 0x18#8
  | .addToIndex x => 0xF#4 ++ x ++ 0x1E#8
  | .loadFontAddress x => 0xF#4 ++ x ++ 0x29#8
  | .storeBcd x => 0xF#4 ++ x ++ 0x33#8
  | .storeRegisters x => 0xF#4 ++ x ++ 0x55#8
  | .loadRegisters x => 0xF#4 ++ x ++ 0x65#8

/-- The two bytes of an instruction as memory holds them, the first at the lower address (20_memory.md R43). -/
def encodeBytes (i : Instr) : List Byte := [firstByte (encode i), secondByte (encode i)]

/-- The instruction value of a table word: the low `nbits` bits of `w`, zeros above (every row of spec/opcode_table.json has
16 bits, bit 0 the least significant bit of the one word). -/
def tableWord (nbits w : Nat) : Word := BitVec.ofNat 16 (w % 2 ^ nbits)

/-- The decoder's answer for a table word, laid out as memory holds it: first byte high (20_memory.md R43). -/
def decodeTableWord (nbits w : Nat) : Option Instr :=
  let op := tableWord nbits w
  match decode [firstByte op, secondByte op] with
  | .ok (i, _) => some i
  | .error _ => none

end Sys2Proof
end

