-- ==== Sys2Proof/Config.lean ====
section
/-! DEFINITION. What an implementation fixes (00_scope.md R4) and the one free value, the random byte
(00_scope.md R5). -/

namespace Sys2Proof

/-- The two parameters of 00_scope.md R4. The constraint 0 ≤ FONT_BASE and FONT_BASE + 80 ≤ 0x200 is the
type of `fontBase` (0 .. 0x1B0). `fontData[5 * d + r]` is row `r` of the glyph of digit `d`. -/
structure Config where
  fontBase : Fin 0x1B1
  fontData : Vector Byte 80
  deriving DecidableEq, Repr

/-- The font table of 10_state.md R25, one line per digit.
PRESUMED (log 3): the spec marks these bytes as general knowledge (D5). Unsafe for a claim that reads one of the bytes. -/
def Config.standardFont : Vector Byte 80 :=
  #v[0xF0, 0x90, 0x90, 0x90, 0xF0, 0x20, 0x60, 0x20, 0x20, 0x70,
     0xF0, 0x10, 0xF0, 0x80, 0xF0, 0xF0, 0x10, 0xF0, 0x10, 0xF0,
     0x90, 0x90, 0xF0, 0x10, 0x10, 0xF0, 0x80, 0xF0, 0x10, 0xF0,
     0xF0, 0x80, 0xF0, 0x90, 0xF0, 0xF0, 0x10, 0x20, 0x40, 0x40,
     0xF0, 0x90, 0xF0, 0x90, 0xF0, 0xF0, 0x90, 0xF0, 0x10, 0xF0,
     0xF0, 0x90, 0xF0, 0x90, 0x90, 0xE0, 0x90, 0xE0, 0x90, 0xE0,
     0xF0, 0x80, 0x80, 0x80, 0xF0, 0xE0, 0x90, 0x90, 0x90, 0xE0,
     0xF0, 0x80, 0xF0, 0x80, 0xF0, 0xF0, 0x80, 0xF0, 0x80, 0x80]

/-- The values the spec takes for its parameters: FONT_BASE = 0x050 (D4) and the table of R25 (D5).
PRESUMED (log 2, log 3). Unsafe for a claim that rests on the numbers; statements quantify over `Config` instead. -/
def Config.standard : Config := { fontBase := 0x050, fontData := Config.standardFont }

/-- FREE VALUE (log 1): the byte the environment supplies at the `n`-th execution of random (49_host_interface.md R199,
42_alu.md R131). It has no body: nothing is known of any draw, so a statement about a draw holds for every byte. -/
opaque Config.rnd : Nat → Byte

end Sys2Proof
end

