-- ==== Sys2Proof/Machine/State.lean ====
section
/-! DEFINITION. The state of the core (10_state.md R10 to R22) and its reset value (R24). -/

namespace Sys2Proof.Machine

/-- MEM (10_state.md R10), as the bytes that differ from the reset image: (address, byte) pairs, addresses strictly rising.
What an unlisted address reads as is `Memory.unlisted` (Ops.lean). -/
abbrev Memory := List Host.Cell

/-- One row of the framebuffer, column 0 first. -/
abbrev PixelRow := Vector Bool 64

/-- FB (10_state.md R18): 32 rows of 64 pixels, `true` is on; `fb[y][x]` is the pixel at column x, row y. -/
abbrev Framebuffer := Vector PixelRow 32

/-- FAULT.cause (10_state.md R21). The 3-bit code is `FaultCause.code` (Ops.lean). -/
inductive FaultCause where
  /-- NONE: no fault since reset. -/
  | none
  /-- FETCH_RANGE (60_exceptions.md R211). -/
  | fetchRange
  /-- DATA_RANGE (60_exceptions.md R212). -/
  | dataRange
  /-- STACK_OVERFLOW (60_exceptions.md R213). -/
  | stackOverflow
  /-- STACK_UNDERFLOW (60_exceptions.md R214). -/
  | stackUnderflow
  deriving DecidableEq, Repr

/-- The fault record FAULT (10_state.md R21). -/
structure FaultRecord where
  cause : FaultCause
  pc : Word
  op : Word
  addr : Word
  deriving DecidableEq, Repr

/-- FAULT while no fault is recorded (10_state.md R24). -/
def FaultRecord.clear : FaultRecord := { cause := .none, pc := 0, op := 0, addr := 0 }

/-- What a `raise c(info)` of the spec carries: the cause and `info.addr` (60_exceptions.md R219). -/
structure Raise where
  cause : FaultCause
  addr : Word
  deriving DecidableEq, Repr

/-- The machine state. The last two fields are the model's own: `cfg` holds the parameters of 00_scope.md R4 and never
changes (log 2), `rndDraws` counts the draws of the free value `Config.rnd` (log 1). -/
structure State where
  /-- MEM (10_state.md R10). -/
  mem : Memory
  /-- V[0] .. V[15] (R11); VF is the flag register (R12). -/
  v : Vector Byte 16
  /-- I, the index register (R13). -/
  i : Word
  /-- PC (R14). -/
  pc : Word
  /-- STACK[0] .. STACK[15] (R15). -/
  stack : Vector Word 16
  /-- SP, the number of stack entries in use (R16). -/
  sp : Byte
  /-- DT, the delay timer (R17). -/
  dt : Byte
  /-- ST, the sound timer (R17). -/
  st : Byte
  /-- FB (R18). -/
  fb : Framebuffer
  /-- KEY[0] .. KEY[15], `true` is pressed (R19). -/
  key : Vector Bool 16
  /-- FAULT (R21). -/
  fault : FaultRecord
  /-- The model's own: FONT_BASE and FONT_DATA (00_scope.md R4). -/
  cfg : Config
  /-- The model's own: the number of the next draw of `rnd` (49_host_interface.md R199). -/
  rndDraws : Nat
  deriving DecidableEq, Repr

/-- Why the model stops. A fault of the hardware is no such stop: it is a next state with the FAULT record written
(60_exceptions.md R219), by `State.raise` (Ops.lean). -/
inductive Fault where
  /-- Raised by call and return in a state with SP > 16, which 10_state.md R16 says is never reached; the entry the rule
  names, STACK[SP] or STACK[SP - 1], does not exist there (log 5). Safe: no run reaches it. -/
  | stackPointerIllegal
  deriving DecidableEq, Repr

/-- Why the model gives an instruction no meaning. -/
inductive Refusal where
  /-- Raised by exec's arm of an instruction that has no meaning yet, named as spec/opcode_table.json names it. Safe.
  No arm does: every instruction has its meaning. -/
  | notModelled (mnemonic : String)
  deriving DecidableEq, Repr

/-- The reset values of 10_state.md R24 with the parameters `c`, the draws of `rnd` counted from `draws`. -/
def State.resetWith (c : Config) (draws : Nat) : State :=
  { mem := []
    v := Vector.replicate 16 0
    i := 0
    pc := 0x0200
    stack := Vector.replicate 16 0
    sp := 0
    dt := 0
    st := 0
    fb := Vector.replicate 32 (Vector.replicate 64 false)
    key := Vector.replicate 16 false
    fault := FaultRecord.clear
    cfg := c
    rndDraws := draws }

/-- The machine right after reset (10_state.md R24, 70_reset_and_hazards.md R240, R241), with the parameter values the spec
takes (00_scope.md R4). The draw counter starts at 0: DESIGN CHOICE (log 1); no statement rests on it. -/
def State.reset : State := State.resetWith Config.standard 0

end Sys2Proof.Machine
end

