-- ==== Sys2Proof/Machine/Ops.lean ====
section
/-! DEFINITION. The named operations over memory, the program counter and the stack, the fetch, and taking a fault
(20_memory.md R42 to R46, 40_cycle.md R82, R86, 60_exceptions.md R219). -/

namespace Sys2Proof.Machine

/-- What an address that the memory list does not name reads as: the reset contents (10_state.md R24), FONT_DATA at
FONT_BASE .. FONT_BASE + 79 and 0x00 elsewhere. -/
def Memory.unlisted (c : Config) (a : Nat) : Byte :=
  if h : c.fontBase.val ≤ a ∧ a < c.fontBase.val + 80 then c.fontData[a - c.fontBase.val]'(by omega) else 0

/-- The byte the list holds at an address, if it names it. -/
def Memory.lookup : Memory → Nat → Option Byte
  | [], _ => none
  | (k, b) :: m, a => if a = k then some b else Memory.lookup m a

/-- `MEM[a]`. -/
def Memory.read (c : Config) (m : Memory) (a : Nat) : Byte := (Memory.lookup m a).getD (Memory.unlisted c a)

/-- The entry for address `a` holding `b` in front of `m`, or none where `b` is what the unlisted address reads as. -/
def Memory.entry (c : Config) (a : Nat) (b : Byte) (m : Memory) : Memory :=
  if b = Memory.unlisted c a then m else (a, b) :: m

/-- `MEM[a] <- b`, keeping the canonical form. -/
def Memory.write (c : Config) : Memory → Nat → Byte → Memory
  | [], a, b => Memory.entry c a b []
  | (k, w) :: m, a, b =>
    if a < k then Memory.entry c a b ((k, w) :: m)
    else if a = k then Memory.entry c a b m
    else (k, w) :: Memory.write c m a b

/-- The canonical form: addresses strictly rising and inside the address space 0 .. 4095 (20_memory.md R40), and no entry
equal to what an unlisted address reads as. -/
def Memory.wf (c : Config) : Memory → Bool
  | [] => true
  | (a, b) :: m =>
    decide (a < 4096) && decide (b ≠ Memory.unlisted c a) && m.all (fun e => decide (a < e.1)) && Memory.wf c m

/-- `MEM[a]` of a state, unchecked: "used only inside the definitions of MemRead and MemWrite and in reset" (00_scope.md R6). -/
def State.byteAt (s : State) (a : Nat) : Byte := Memory.read s.cfg s.mem a

/-- `MEM[a] <- b` in a state, unchecked. -/
def State.setByte (s : State) (a : Nat) (b : Byte) : State := { s with mem := Memory.write s.cfg s.mem a b }

/-- `MemRead(addr, 1)` (20_memory.md R42). -/
def State.memRead (s : State) (a : Nat) : Except Raise Byte :=
  if a > 4095 then .error ⟨.dataRange, BitVec.ofNat 16 a⟩ else .ok (s.byteAt a)

/-- `MemWrite(addr, 1, v)` (20_memory.md R42). -/
def State.memWrite (s : State) (a : Nat) (b : Byte) : Except Raise State :=
  if a > 4095 then .error ⟨.dataRange, BitVec.ofNat 16 a⟩ else .ok (s.setByte a b)

/-- `MemRead(addr, 2)`, the instruction fetch only, first byte high (20_memory.md R42, R43). -/
def State.memReadWord (s : State) (a : Nat) : Except Raise Word :=
  if a > 4095 then .error ⟨.fetchRange, BitVec.ofNat 16 a⟩
  else if a + 1 > 4095 then .error ⟨.fetchRange, BitVec.ofNat 16 (a + 1)⟩
  else .ok (wordOfBytes (s.byteAt a) (s.byteAt (a + 1)))

/-- Single-byte reads at ascending addresses (20_memory.md R44). -/
def State.memReadBytes (s : State) : Nat → Nat → Except Raise (List Byte)
  | _, 0 => .ok []
  | a, n + 1 => do
    let b ← s.memRead a
    let bs ← State.memReadBytes s (a + 1) n
    pure (b :: bs)

/-- Single-byte writes at ascending addresses (20_memory.md R44). -/
def State.memWriteBytes (s : State) : Nat → List Byte → Except Raise State
  | _, [] => .ok s
  | a, b :: bs => do
    let t ← s.memWrite a b
    State.memWriteBytes t (a + 1) bs

/-- The instruction value at PC (40_cycle.md R82). -/
def State.fetch (s : State) : Except Raise Word := s.memReadWord s.pc.toNat

/-- The range check of an instruction that accesses the `n` bytes I .. I + n - 1, made before its first access: DATA_RANGE when
the highest effective address exceeds 4095, with the first address above it, max(I, 4096); an empty range cannot fault
(20_memory.md R46). -/
def State.checkRange (s : State) (n : Nat) : Except Raise PUnit :=
  if 0 < n ∧ s.i.toNat + n > 4096 then .error ⟨.dataRange, BitVec.ofNat 16 (max s.i.toNat 4096)⟩ else .ok ⟨⟩

/-- The generic advance (40_cycle.md R86): the next sequential instruction is at PC + 2. -/
def State.advance (s : State) : State := { s with pc := s.pc + 2 }

/-- The 3-bit code of FAULT.cause (10_state.md R21). -/
def FaultCause.code : FaultCause → BitVec 3
  | .none => 0
  | .fetchRange => 1
  | .dataRange => 2
  | .stackOverflow => 3
  | .stackUnderflow => 4

/-- The engine is halted: a fault is recorded (40_cycle.md R81). -/
abbrev State.Halted (s : State) : Prop := s.fault.cause ≠ .none

/-- TAKING A FAULT (60_exceptions.md R219): the FAULT record is written, with the address and the value of the faulting
instruction, and nothing else. `s` is the state before the faulting step. -/
def State.raise (s : State) (r : Raise) (op : Word) : State :=
  { s with fault := { cause := r.cause, pc := s.pc, op := op, addr := r.addr } }

/-- LEAVING A FAULT: `reset()`, "the only operation that clears a fault" (49_host_interface.md R191); there is no return
instruction (60_exceptions.md R220). Every element takes its reset value whatever the state was (70_reset_and_hazards.md R240);
the model's own fields stay: the parameters, and the draw counter, so that the draws after a reset are fresh (log 1). -/
def State.resetOp (s : State) : State := State.resetWith s.cfg s.rndDraws

/-- End of an instruction's rule: the state it leaves, or, where the rule raised, the fault taken from the state before it, with
the instruction's own value as `op` (40_cycle.md R80, 60_exceptions.md R219). Discarding the writes is in the type: a raise
carries no state. -/
def State.settle (s : State) (i : Instr) : Except Raise State → Host.Outcome State Fault Refusal
  | .ok t => .next t
  | .error r => .next (s.raise r (encode i))

/-- A fetch that raised: "`FAULT.op` = 0x0000 (nothing was fetched)" (60_exceptions.md R211). -/
def State.fetchFault (s : State) (r : Raise) : State := s.raise r 0

/-- An unknown instruction: "a no-op that still advances the program counter" (40_cycle.md R87). -/
def State.unknownInstruction (s : State) : State := s.advance

/-- STACK entry `j` (10_state.md R15). -/
def State.entry (s : State) (j : Fin 16) : Word := s.stack[j.val]

/-- `STACK[j] <- w`. -/
def State.setEntry (s : State) (j : Fin 16) (w : Word) : State := { s with stack := s.stack.set j.val w }

/-- The push of call: `STACK[SP] <- w`, then SP + 1 (10_state.md R15), where entry SP exists. -/
def State.push (s : State) (w : Word) (h : s.sp.toNat < 16) : State :=
  { s.setEntry ⟨s.sp.toNat, h⟩ w with sp := s.sp + 1 }

/-- A table word stored where the step fetches its next instruction: its two bytes at PC and PC + 1, first byte high.
Where one of them does not exist (PC > 0xFFE) nothing is stored (log 8). -/
def State.storeAtPc (s : State) (op : Word) : State :=
  if s.pc.toNat + 1 > 4095 then s
  else (s.setByte s.pc.toNat (firstByte op)).setByte (s.pc.toNat + 1) (secondByte op)

end Sys2Proof.Machine
end

