-- ==== Sys2Proof/Machine/Operands.lean ====
section
/-! DEFINITION. The operand forms: general registers, immediates, the key or digit number in a register, the register
block of store-registers and load-registers (30_encoding.md R61, R63; 10_state.md R11; 92_eei_decisions.md D13). -/

namespace Sys2Proof.Machine

/-- `V[x]` (10_state.md R11). -/
def State.getV (s : State) (x : Reg) : Byte := s.v[x.toNat]'x.isLt

/-- `V[x] <- b`. No register is hard-wired (10_state.md R11). -/
def State.setV (s : State) (x : Reg) (b : Byte) : State := { s with v := s.v.set x.toNat b x.isLt }

/-- `zext_16(NNN)` (30_encoding.md R63). -/
def zextAddr (nnn : Addr12) : Word := nnn.setWidth 16

/-- `zext_16(V[x])`. -/
def State.zextV (s : State) (x : Reg) : Word := (s.getV x).setWidth 16

/-- The key number or font digit of `Vx`: "low four bits of Vx" (45_keypad_timers.md R170, 43_index_memory.md R142; D13). -/
def State.lowNibble (s : State) (x : Reg) : Fin 16 := ⟨(s.getV x).toNat % 16, Nat.mod_lt _ (by decide)⟩

/-- `KEY[k]` (10_state.md R19). -/
def State.keyAt (s : State) (k : Fin 16) : Bool := s.key[k.val]

/-- The least pressed key, if any key is pressed (45_keypad_timers.md R173). -/
def State.leastKey (s : State) : Option Nat := s.key.toList.findIdx? id

/-- The registers V0 .. Vx in ascending order, X + 1 bytes (43_index_memory.md R144). -/
def State.registerBlock (s : State) (x : Reg) : List Byte := s.v.toList.take (x.toNat + 1)

/-- `V[k] <- b` for the bytes of a list, at ascending register numbers from `k` (43_index_memory.md R145). -/
def State.setBlock (s : State) (k : Nat) : List Byte → State
  | [] => s
  | b :: bs => State.setBlock (s.setV (BitVec.ofNat 4 k) b) (k + 1) bs

/-- Go past the instruction, or past it and the next one: a skip's net effect on PC (40_cycle.md R86, 90_conflicts.md C2). -/
def State.skipIf (s : State) (taken : Bool) : State := { s with pc := if taken then s.pc + 4 else s.pc + 2 }

end Sys2Proof.Machine
end

