-- ==== Sys2Proof/Machine/Flags.lean ====
section
/-! DEFINITION. The values the flag register VF takes (10_state.md R12, 42_alu.md R126 to R133) and the 8-bit results, each
computed over the naturals and narrowed at the end (42_alu.md R132). -/

namespace Sys2Proof.Machine

/-- VF is written as "the full byte 0x00 or 0x01" (10_state.md R12). -/
def flagByte (p : Bool) : Byte := if p then 1 else 0

/-- add X,Y: 1 if a + b > 255 else 0 (42_alu.md R126). -/
def carryFlag (a b : Byte) : Byte := flagByte (decide (a.toNat + b.toNat > 255))

/-- sub X,Y: 1 if a > b else 0; equal operands give 0 (42_alu.md R127, 90_conflicts.md C3; log 18). -/
def subFlag (a b : Byte) : Byte := flagByte (decide (a.toNat > b.toNat))

/-- subn X,Y: 1 if a ≤ b else 0; equal operands give 1 (42_alu.md R129). -/
def subnFlag (a b : Byte) : Byte := flagByte (decide (a.toNat ≤ b.toNat))

/-- shift-right X: the bit shifted out, a[0] (42_alu.md R128). -/
def lowBitFlag (a : Byte) : Byte := flagByte (a.getLsbD 0)

/-- shift-left X: the bit shifted out, a[7] (42_alu.md R130). -/
def highBitFlag (a : Byte) : Byte := flagByte (a.getLsbD 7)

/-- (a + b) mod 256 (42_alu.md R132). -/
def add8 (a b : Byte) : Byte := BitVec.ofNat 8 (a.toNat + b.toNat)

/-- (a - b) mod 256: "a - b if a >= b, else a - b + 256" (42_alu.md R127). -/
def sub8 (a b : Byte) : Byte :=
  BitVec.ofNat 8 (if b.toNat ≤ a.toNat then a.toNat - b.toNat else a.toNat + 256 - b.toNat)

/-- a >> 1, logical (42_alu.md R128). -/
def shr8 (a : Byte) : Byte := BitVec.ofNat 8 (a.toNat / 2)

/-- (a << 1) mod 256 (42_alu.md R130). -/
def shl8 (a : Byte) : Byte := BitVec.ofNat 8 (2 * a.toNat)

/-- "Vx ← …; flag register ← …": the result first, the flag second, so that the flag remains when X = 0xF
(42_alu.md R133, D12; log 14). -/
def State.resultThenFlag (s : State) (x : Reg) (result flag : Byte) : State := (s.setV x result).setV vf flag

/-- "flag register ← …; Vx ← …": the flag first, the result second, so that the result remains when X = 0xF
(42_alu.md R133, D12; log 14). -/
def State.flagThenResult (s : State) (x : Reg) (flag result : Byte) : State := (s.setV vf flag).setV x result

end Sys2Proof.Machine
end

