-- ==== Sys2Proof/Machine/Alu.lean ====
section
/-! DEFINITION. Register load, arithmetic, logic, shift and random instructions (42_alu.md). Operands are read from the state
before the instruction (R133); the generic advance follows each. -/

namespace Sys2Proof.Machine

/-- set X,NN (R120). -/
def execSetImm (x : Reg) (nn : Byte) (s : State) : Host.Outcome State Fault Refusal :=
  .next (s.setV x nn).advance

/-- add X,NN (R121): no flag effect. -/
def execAddImm (x : Reg) (nn : Byte) (s : State) : Host.Outcome State Fault Refusal :=
  .next (s.setV x (add8 (s.getV x) nn)).advance

/-- set X,Y (R122). -/
def execSetReg (x y : Reg) (s : State) : Host.Outcome State Fault Refusal :=
  .next (s.setV x (s.getV y)).advance

/-- or X,Y (R123): VF unchanged. -/
def execOrReg (x y : Reg) (s : State) : Host.Outcome State Fault Refusal :=
  .next (s.setV x (s.getV x ||| s.getV y)).advance

/-- and X,Y (R124): VF unchanged. -/
def execAndReg (x y : Reg) (s : State) : Host.Outcome State Fault Refusal :=
  .next (s.setV x (s.getV x &&& s.getV y)).advance

/-- xor X,Y (R125): VF unchanged. -/
def execXorReg (x y : Reg) (s : State) : Host.Outcome State Fault Refusal :=
  .next (s.setV x (s.getV x ^^^ s.getV y)).advance

/-- add X,Y (R126): the sum, then the carry. -/
def execAddReg (x y : Reg) (s : State) : Host.Outcome State Fault Refusal :=
  .next (s.resultThenFlag x (add8 (s.getV x) (s.getV y)) (carryFlag (s.getV x) (s.getV y))).advance

/-- sub X,Y (R127): the flag, then the difference Vx - Vy. -/
def execSubReg (x y : Reg) (s : State) : Host.Outcome State Fault Refusal :=
  .next (s.flagThenResult x (subFlag (s.getV x) (s.getV y)) (sub8 (s.getV x) (s.getV y))).advance

/-- shift-right X (R128): the flag, then the shifted value; Y is ignored (30_encoding.md R67). -/
def execShiftRight (x _y : Reg) (s : State) : Host.Outcome State Fault Refusal :=
  .next (s.flagThenResult x (lowBitFlag (s.getV x)) (shr8 (s.getV x))).advance

/-- subn X,Y (R129): the flag, then the difference Vy - Vx. -/
def execSubnReg (x y : Reg) (s : State) : Host.Outcome State Fault Refusal :=
  .next (s.flagThenResult x (subnFlag (s.getV x) (s.getV y)) (sub8 (s.getV y) (s.getV x))).advance

/-- shift-left X (R130): the flag, then the shifted value; Y is ignored (30_encoding.md R67). -/
def execShiftLeft (x _y : Reg) (s : State) : Host.Outcome State Fault Refusal :=
  .next (s.flagThenResult x (highBitFlag (s.getV x)) (shl8 (s.getV x))).advance

/-- random X,NN (R131) with the sampled byte `rnd` given. -/
def randomWith (rnd : Byte) (x : Reg) (nn : Byte) (s : State) : State :=
  { (s.setV x (rnd &&& nn)).advance with rndDraws := s.rndDraws + 1 }

/-- random X,NN (R131): the byte is the next draw of the free value (49_host_interface.md R199; log 1), "a fresh 8-bit draw for
this execution". -/
def execRandom (x : Reg) (nn : Byte) (s : State) : Host.Outcome State Fault Refusal :=
  .next (randomWith (Config.rnd s.rndDraws) x nn s)

end Sys2Proof.Machine
end

