-- ==== Sys2Proof/Machine/ControlFlow.lean ====
section
/-! DEFINITION. The control-flow instructions (41_control_flow.md). Each writes PC itself; PC read is the address of the
instruction being executed (40_cycle.md R85). -/

namespace Sys2Proof.Machine

/-- return (R100): pop the top entry into PC; STACK_UNDERFLOW when the stack is empty (60_exceptions.md R214). The popped entry
keeps its value (10_state.md R15). SP > 16 is never reached (10_state.md R16; log 5). -/
def execRet (s : State) : Host.Outcome State Fault Refusal :=
  if s.sp = 0 then s.settle .ret (.error ⟨.stackUnderflow, 0⟩)
  else if h : s.sp.toNat - 1 < 16 then .next { s with sp := s.sp - 1, pc := s.entry ⟨s.sp.toNat - 1, h⟩ }
  else .fault .stackPointerIllegal

/-- jump NNN (R101). -/
def execJump (nnn : Addr12) (s : State) : Host.Outcome State Fault Refusal :=
  .next { s with pc := zextAddr nnn }

/-- call NNN (R102): push PC + 2, the address of the instruction after the call (90_conflicts.md C1), and go to NNN;
STACK_OVERFLOW when 16 entries are in use (60_exceptions.md R213). SP > 16 is never reached (10_state.md R16; log 5). -/
def execCall (nnn : Addr12) (s : State) : Host.Outcome State Fault Refusal :=
  if s.sp = 16 then s.settle (.call nnn) (.error ⟨.stackOverflow, 0⟩)
  else if h : s.sp.toNat < 16 then .next { s.push (s.pc + 2) h with pc := zextAddr nnn }
  else .fault .stackPointerIllegal

/-- skip-if-equal X,NN (R103). -/
def execSkipIfEqual (x : Reg) (nn : Byte) (s : State) : Host.Outcome State Fault Refusal :=
  .next (s.skipIf (s.getV x == nn))

/-- skip-if-not-equal X,NN (R104). -/
def execSkipIfNotEqual (x : Reg) (nn : Byte) (s : State) : Host.Outcome State Fault Refusal :=
  .next (s.skipIf (s.getV x != nn))

/-- skip-if-reg-equal X,Y (R105). -/
def execSkipIfRegEqual (x y : Reg) (s : State) : Host.Outcome State Fault Refusal :=
  .next (s.skipIf (s.getV x == s.getV y))

/-- skip-if-reg-not-equal X,Y (R106). -/
def execSkipIfRegNotEqual (x y : Reg) (s : State) : Host.Outcome State Fault Refusal :=
  .next (s.skipIf (s.getV x != s.getV y))

/-- jump-offset NNN (R107): the sum is not reduced modulo 4096. -/
def execJumpOffset (nnn : Addr12) (s : State) : Host.Outcome State Fault Refusal :=
  .next { s with pc := zextAddr nnn + s.zextV v0 }

end Sys2Proof.Machine
end

