-- ==== Sys2Proof/Machine/Display.lean ====
section
/-! DEFINITION. The framebuffer and its two instructions (44_display.md, 10_state.md R18). -/

namespace Sys2Proof.Machine

/-- `FB[y][x]`. -/
def Framebuffer.get (fb : Framebuffer) (x : Fin 64) (y : Fin 32) : Bool := fb[y.val][x.val]

/-- `FB[y][x] <- FB[y][x] ^ 1`. -/
def Framebuffer.flip (fb : Framebuffer) (x : Fin 64) (y : Fin 32) : Framebuffer :=
  fb.set y.val (fb[y.val].set x.val (!fb.get x y))

/-- All pixels off. -/
def Framebuffer.clear : Framebuffer := Vector.replicate 32 (Vector.replicate 64 false)

/-- What a draw changes while it runs: the pixels, and whether an on pixel has been turned off. -/
structure Canvas where
  fb : Framebuffer
  hit : Bool
  deriving DecidableEq, Repr

/-- One sprite bit at column `x`, row `y` of the unbounded plane: clipped past column 63 and row 31, else XORed into the
framebuffer, an on pixel turned off being a collision (44_display.md R161). -/
def Canvas.plot (cv : Canvas) (x y : Nat) (bit : Bool) : Canvas :=
  if h : x < 64 ∧ y < 32 then
    if bit then
      { fb := cv.fb.flip ⟨x, h.1⟩ ⟨y, h.2⟩, hit := cv.hit || cv.fb.get ⟨x, h.1⟩ ⟨y, h.2⟩ }
    else cv
  else cv

/-- Sprite row `row` at row `y`, columns x0 .. x0 + 7 from left to right; column c is bit 7 - c (44_display.md R161, D18: the
spec marks the bit order as general knowledge, log 11). -/
def Canvas.drawRow (cv : Canvas) (x0 y : Nat) (row : Byte) : Canvas :=
  (List.range 8).foldl (fun acc c => acc.plot (x0 + c) y (row.getLsbD (7 - c))) cv

/-- The sprite rows of a list, top to bottom from row `y` (44_display.md R161). -/
def Canvas.drawRows (cv : Canvas) (x0 : Nat) : Nat → List Byte → Canvas
  | _, [] => cv
  | y, row :: rows => Canvas.drawRows (cv.drawRow x0 y row) x0 (y + 1) rows

/-- clear-screen (R160). -/
def execClearScreen (s : State) : Host.Outcome State Fault Refusal :=
  .next { s with fb := Framebuffer.clear }.advance

/-- draw X,Y,N (R161): the start position wraps, the sprite clips; the range of all N rows is checked and read, clipped rows
included (D9); VF is written last, also when N = 0. -/
def execDraw (x y : Reg) (n : BitVec 4) (s : State) : Host.Outcome State Fault Refusal :=
  s.settle (.draw x y n) do
    s.checkRange n.toNat
    let rows ← s.memReadBytes s.i.toNat n.toNat
    let cv := Canvas.drawRows ⟨s.fb, false⟩ ((s.getV x).toNat % 64) ((s.getV y).toNat % 32) rows
    pure ({ s with fb := cv.fb }.setV vf (flagByte cv.hit)).advance

end Sys2Proof.Machine
end

