-- ==== Sys2Proof/Machine/IndexMemory.lean ====
section
/-! DEFINITION. Index register and memory instructions (43_index_memory.md). The generic advance follows each that does not
fault; a fault comes from the range check, before the first access (20_memory.md R46). -/

namespace Sys2Proof.Machine

/-- set-index NNN (R140). -/
def execSetIndex (nnn : Addr12) (s : State) : Host.Outcome State Fault Refusal :=
  .next { s with i := zextAddr nnn }.advance

/-- add-to-index X (R141): modulo 65536, no flag, no fault. -/
def execAddToIndex (x : Reg) (s : State) : Host.Outcome State Fault Refusal :=
  .next { s with i := s.i + s.zextV x }.advance

/-- FONT_BASE + 5 * d, the address of the glyph of digit `d` (R142). -/
def fontAddress (c : Config) (d : Fin 16) : Word := BitVec.ofNat 16 (c.fontBase.val + 5 * d.val)

/-- load-font-address X (R142): the digit is the low four bits of Vx (D13); memory is not accessed. -/
def execLoadFontAddress (x : Reg) (s : State) : Host.Outcome State Fault Refusal :=
  .next { s with i := fontAddress s.cfg (s.lowNibble x) }.advance

/-- The three decimal digits of a byte, hundreds first (R143). -/
def bcdDigits (a : Byte) : List Byte :=
  [BitVec.ofNat 8 (a.toNat / 100), BitVec.ofNat 8 (a.toNat / 10 % 10), BitVec.ofNat 8 (a.toNat % 10)]

/-- store-bcd X (R143). -/
def execStoreBcd (x : Reg) (s : State) : Host.Outcome State Fault Refusal :=
  s.settle (.storeBcd x) do
    s.checkRange 3
    let t ← s.memWriteBytes s.i.toNat (bcdDigits (s.getV x))
    pure t.advance

/-- store-registers X (R144): V0 .. Vx to I .. I + X; I unchanged. -/
def execStoreRegisters (x : Reg) (s : State) : Host.Outcome State Fault Refusal :=
  s.settle (.storeRegisters x) do
    s.checkRange (x.toNat + 1)
    let t ← s.memWriteBytes s.i.toNat (s.registerBlock x)
    pure t.advance

/-- load-registers X (R145): I .. I + X to V0 .. Vx; I unchanged. -/
def execLoadRegisters (x : Reg) (s : State) : Host.Outcome State Fault Refusal :=
  s.settle (.loadRegisters x) do
    s.checkRange (x.toNat + 1)
    let bs ← s.memReadBytes s.i.toNat (x.toNat + 1)
    pure (s.setBlock 0 bs).advance

end Sys2Proof.Machine
end

