-- ==== Sys2Proof/Machine/KeypadTimers.lean ====
section
/-! DEFINITION. Keypad and timer instructions (45_keypad_timers.md). None accesses memory, none can fault. -/

namespace Sys2Proof.Machine

/-- skip-if-key-pressed X (R170): the key number is the low four bits of Vx (D13). -/
def execSkipIfKeyPressed (x : Reg) (s : State) : Host.Outcome State Fault Refusal :=
  .next (s.skipIf (s.keyAt (s.lowNibble x)))

/-- skip-if-key-not-pressed X (R171). -/
def execSkipIfKeyNotPressed (x : Reg) (s : State) : Host.Outcome State Fault Refusal :=
  .next (s.skipIf (!s.keyAt (s.lowNibble x)))

/-- get-delay X (R172). -/
def execGetDelay (x : Reg) (s : State) : Host.Outcome State Fault Refusal :=
  .next (s.setV x s.dt).advance

/-- wait-for-key X (R173): the least pressed key, or nothing written and PC on the instruction itself (D14; log 13). -/
def execWaitForKey (x : Reg) (s : State) : Host.Outcome State Fault Refusal :=
  match s.leastKey with
  | some k => .next (s.setV x (BitVec.ofNat 8 k)).advance
  | none => .next s

/-- set-delay X (R174). -/
def execSetDelay (x : Reg) (s : State) : Host.Outcome State Fault Refusal :=
  .next { s with dt := s.getV x }.advance

/-- set-sound X (R175): no sound output (D28). -/
def execSetSound (x : Reg) (s : State) : Host.Outcome State Fault Refusal :=
  .next { s with st := s.getV x }.advance

end Sys2Proof.Machine
end

