-- ==== Sys2Proof/Machine/Step.lean ====
section
/-! DEFINITION. The cycle `step()` (40_cycle.md R80): halted check, fetch, decode, dispatch, execute with the advance. -/

namespace Sys2Proof.Machine

/-- One instruction cycle (40_cycle.md R80 to R87). A halted engine answers the state unchanged (R81); a fetch out of range takes
its fault (R82); an unknown instruction is a no-op that advances (R87); a known one is executed (R85). -/
def step (s : State) : Host.Outcome State Fault Refusal :=
  if s.Halted then .next s
  else
    match s.fetch with
    | .error r => .next (s.fetchFault r)
    | .ok op =>
      match decodeWord op with
      | none => .next s.unknownInstruction
      | some i => exec i s

/-- The state with an instruction stored where `step` fetches its next one, at PC and PC + 1 (log 8). -/
def State.withFetchWord (s : State) (nbits w : Nat) : State := s.storeAtPc (tableWord nbits w)

end Sys2Proof.Machine
end

