-- ==== Sys2Proof/Machine/Agents.lean ====
section
/-! DEFINITION. The operations of the outside agents (49_host_interface.md R190 to R200) and the histories they make with `step()`.
Each operation is atomic and happens between steps (R200). -/

namespace Sys2Proof.Machine

/-- The answer of `load_program` (49_host_interface.md R192). -/
inductive LoadReply where
  | loaded
  | romTooLarge
  deriving DecidableEq, Repr

/-- `MEM[a], MEM[a+1], … <- bytes`, unchecked. -/
def State.setBytes (s : State) (a : Nat) : List Byte → State
  | [] => s
  | b :: bs => State.setBytes (s.setByte a b) (a + 1) bs

/-- `load_program(bytes)` (R192): the bytes at 0x200 and up, or ROM_TOO_LARGE and no state changed. -/
def State.loadProgram (s : State) (bytes : List Byte) : LoadReply × State :=
  if bytes.length > 3584 then (.romTooLarge, s) else (.loaded, s.setBytes 0x200 bytes)

/-- `key_write(k, b)` (R194). -/
def State.keyWrite (s : State) (k : Fin 16) (b : Bool) : State := { s with key := s.key.set k.val b }

/-- A counter's tick: one less, stopping at 0 (R195). PRESUMED by the spec (log 15, D16). -/
def tickDown (t : Byte) : Byte := if t = 0 then 0 else t - 1

/-- `timer_tick()` (R195): both timers, on the same event. -/
def State.timerTick (s : State) : State := { s with dt := tickDown s.dt, st := tickDown s.st }

/-- `fb_read(x, y)` (R196). -/
def State.fbRead (s : State) (x : Fin 64) (y : Fin 32) : Bool := s.fb[y.val][x.val]

/-- FB in the linear order of 10_state.md R18: the pixel (x, y) is element 64·y + x (D17). -/
def State.fbLinear (s : State) : List Bool := (s.fb.toList.map Vector.toList).flatten

/-- `timer_read()` (R197). -/
def State.timerRead (s : State) : Byte × Byte := (s.dt, s.st)

/-- The derived flag `awaiting_key` (R198): the next `step()` would return WAITING. -/
def State.awaitingKey (s : State) : Bool :=
  decide (s.fault.cause = .none) && decide (s.pc.toNat ≤ 0xFFE)
    && ((wordOfBytes (s.byteAt s.pc.toNat) (s.byteAt (s.pc.toNat + 1)) &&& 0xF0FF) == 0xF00A)
    && s.key.toList.all (fun b => !b)

/-- `status_read()` (R198). -/
def State.statusRead (s : State) : FaultRecord × Bool := (s.fault, s.awaitingKey)

/-- The operations of the outside agents that write state; the reads (R196, R197, R198) change nothing. -/
inductive HostOp where
  | reset
  | loadProgram (bytes : List Byte)
  | keyWrite (k : Fin 16) (b : Bool)
  | timerTick
  deriving DecidableEq, Repr

/-- The state an operation leaves. -/
def State.apply (s : State) : HostOp → State
  | .reset => s.resetOp
  | .loadProgram bytes => (s.loadProgram bytes).2
  | .keyWrite k b => s.keyWrite k b
  | .timerTick => s.timerTick

/-- What happens next in a history: a step of the engine, or an operation from outside. -/
inductive Event where
  | step
  | op (o : HostOp)
  deriving DecidableEq, Repr

/-- One event. -/
def State.event (s : State) : Event → Host.Outcome State Fault Refusal
  | .step => step s
  | .op o => .next (s.apply o)

/-- A history: "Any finite sequence of operations is legal, in any order and with any counts" (R200). -/
def State.runEvents (s : State) : List Event → Host.Outcome State Fault Refusal
  | [] => .next s
  | e :: es =>
    match s.event e with
    | .next t => State.runEvents t es
    | .fault r => .fault r
    | .refused r => .refused r

end Sys2Proof.Machine
end

