-- ==== Sys2Proof/Machine/Report.lean ====
section
/-! DEFINITION. The outcome `step()` reports to its caller (40_cycle.md R88): "an output, not state". -/

namespace Sys2Proof.Machine

/-- The five step outcomes (40_cycle.md R88, D19). -/
inductive StepReport where
  /-- A known instruction executed. -/
  | ok
  /-- The instruction value matches no pattern (R87). -/
  | unknown (op : Word)
  /-- wait-for-key found no key pressed; PC did not move. -/
  | waiting
  /-- This step raised; the FAULT record was just written. -/
  | faulted (c : FaultCause)
  /-- A fault was already recorded (R81). -/
  | halted
  deriving DecidableEq, Repr

/-- "WAITING if h is wait-for-key and it found no key pressed" (40_cycle.md R80). -/
def State.waitsOn (s : State) : Instr → Bool
  | .waitForKey _ => s.leastKey.isNone
  | _ => false

/-- The report of an instruction that left the state `t`. -/
def State.reportOf (s : State) (i : Instr) (t : State) : StepReport :=
  if t.fault.cause ≠ .none then .faulted t.fault.cause else if s.waitsOn i then .waiting else .ok

/-- What `step()` returns in the state `s`; `none` where the model stops (log 5, log 6). -/
def State.report (s : State) : Option StepReport :=
  if s.Halted then some .halted
  else
    match s.fetch with
    | .error r => some (.faulted r.cause)
    | .ok op =>
      match decodeWord op with
      | none => some (.unknown op)
      | some i =>
        match exec i s with
        | .next t => some (s.reportOf i t)
        | _ => none

end Sys2Proof.Machine
end

