-- ==== Sys2Proof/Safety.lean ====
section
/-! DEFINITION. The terms claims use: the parts of the state and what it means that nothing else changed, the faults and
footprints of instructions as the spec tabulates them, and the invariant of the machine. -/

namespace Sys2Proof.Machine

/-- The parts of the state, down to one register, stack entry, pixel, key and memory byte (10_state.md R10 to R21), with the
model's own two fields. -/
inductive Part where
  | reg (r : Reg)
  | index
  | pc
  | stackEntry (j : Fin 16)
  | sp
  | delay
  | sound
  | pixel (x : Fin 64) (y : Fin 32)
  | key (k : Fin 16)
  | byte (a : Nat)
  | fault
  | config
  | draws
  deriving DecidableEq, Repr

/-- The part is the same in both states. -/
def Part.Same (s t : State) : Part → Prop
  | .reg r => t.getV r = s.getV r
  | .index => t.i = s.i
  | .pc => t.pc = s.pc
  | .stackEntry j => t.entry j = s.entry j
  | .sp => t.sp = s.sp
  | .delay => t.dt = s.dt
  | .sound => t.st = s.st
  | .pixel x y => t.fbRead x y = s.fbRead x y
  | .key k => t.keyAt k = s.keyAt k
  | .byte a => t.byteAt a = s.byteAt a
  | .fault => t.fault = s.fault
  | .config => t.cfg = s.cfg
  | .draws => t.rndDraws = s.rndDraws

/-- Going from `s` to `t`, every part outside `w` is unchanged. -/
def Frame (w : Part → Prop) (s t : State) : Prop := ∀ p, ¬ w p → p.Same s t

/-- Going from `s` to `t`, every part that the list does not name is unchanged. -/
def OnlyChanges (ps : List Part) (s t : State) : Prop := Frame (fun p => p ∈ ps) s t

/-- The step runs an instruction and its fetch is in range: nothing is recorded and PC ≤ 0xFFE (40_cycle.md R81, R82). -/
def State.Ready (s : State) : Prop := s.fault.cause = .none ∧ s.pc.toNat ≤ 0xFFE

/-- `{MEM[PC], MEM[PC+1]}` (40_cycle.md R82). -/
def State.opAtPc (s : State) : Word := wordOfBytes (s.byteAt s.pc.toNat) (s.byteAt (s.pc.toNat + 1))

/-- The instruction the next step executes, if it executes one. -/
def State.Executes (s : State) (i : Instr) : Prop := s.Ready ∧ decodeWord s.opAtPc = some i

/-- How many memory bytes from I an instruction accesses (20_memory.md R44). -/
def accessLength : Instr → Nat
  | .draw _ _ n => n.toNat
  | .storeBcd _ => 3
  | .storeRegisters x => x.toNat + 1
  | .loadRegisters x => x.toNat + 1
  | _ => 0

/-- The fault an instruction raises in a state (60_exceptions.md R210): call with SP = 16, return with SP = 0, and a memory
instruction whose highest effective address exceeds 4095, with the first address above it. -/
def raises (s : State) (i : Instr) : Option Raise :=
  match i with
  | .call _ => if s.sp.toNat = 16 then some ⟨.stackOverflow, 0⟩ else none
  | .ret => if s.sp.toNat = 0 then some ⟨.stackUnderflow, 0⟩ else none
  | i =>
    if 0 < accessLength i ∧ s.i.toNat + accessLength i - 1 > 4095 then
      some ⟨.dataRange, BitVec.ofNat 16 (max s.i.toNat 4096)⟩
    else none

/-- The destination register of an instruction that has one (42_alu.md, 45_keypad_timers.md R172, R173). -/
def destination : Instr → Option Reg
  | .setImm x _ | .addImm x _ | .random x _ => some x
  | .setReg x _ | .orReg x _ | .andReg x _ | .xorReg x _ => some x
  | .addReg x _ | .subReg x _ | .shiftRight x _ | .subnReg x _ | .shiftLeft x _ => some x
  | .getDelay x | .waitForKey x => some x
  | _ => none

/-- The instructions that write VF as a side effect (10_state.md R12). -/
def writesFlag : Instr → Bool
  | .addReg _ _ | .subReg _ _ | .shiftRight _ _ | .subnReg _ _ | .shiftLeft _ _ | .draw _ _ _ => true
  | _ => false

/-- What an instruction that completes may write in a state (10_state.md R12 to R19, R23; 20_memory.md R44), beside PC. -/
def Footprint (s : State) (i : Instr) (p : Part) : Prop :=
  p = .pc ∨ (∃ x, destination i = some x ∧ p = .reg x) ∨ (writesFlag i = true ∧ p = .reg vf) ∨
    match i with
    | .clearScreen | .draw _ _ _ => ∃ x y, p = .pixel x y
    | .ret => p = .sp
    | .call _ => p = .sp ∨ ∃ j, p = .stackEntry j ∧ j.val = s.sp.toNat
    | .setIndex _ | .addToIndex _ | .loadFontAddress _ => p = .index
    | .random _ _ => p = .draws
    | .setDelay _ => p = .delay
    | .setSound _ => p = .sound
    | .storeBcd _ => ∃ k, k < 3 ∧ p = .byte (s.i.toNat + k)
    | .storeRegisters x => ∃ k, k ≤ x.toNat ∧ p = .byte (s.i.toNat + k)
    | .loadRegisters x => ∃ r : Reg, r.toNat ≤ x.toNat ∧ p = .reg r
    | _ => False

/-- The recorded fault describes the state it halted: PC and what caused the fault are still there, since a fault changes
nothing else and a halted engine changes nothing (10_state.md R21; 60_exceptions.md R211 to R214, R219, R221). -/
def State.FaultFits (s : State) : Prop :=
  match s.fault.cause with
  | .none => s.fault = FaultRecord.clear
  | .fetchRange =>
    s.fault.pc = s.pc ∧ s.fault.op = 0 ∧ 0xFFE < s.pc.toNat ∧
      s.fault.addr = (if 4095 < s.pc.toNat then s.pc else 0x1000)
  | c =>
    s.fault.pc = s.pc ∧ s.pc.toNat ≤ 0xFFE ∧
      ∃ i, s.fault.op = encode i ∧ raises s i = some ⟨c, s.fault.addr⟩

/-- The invariant of the machine: the memory list is canonical; SP is legal, 0 .. 16 (10_state.md R16); PC is at most 0x10FE
(R14); every stack entry is at most 0x1000 (41_control_flow.md R100); the fault record fits the state. -/
structure State.Inv (s : State) : Prop where
  memory : Memory.wf s.cfg s.mem = true
  sp : s.sp.toNat ≤ 16
  pc : s.pc.toNat ≤ 0x10FE
  stack : ∀ j, (s.entry j).toNat ≤ 0x1000
  fault : s.FaultFits

/-- The draw of R161 reaches the pixel: an unclipped sprite bit that is 1 lands on it. `x0`, `y0` are the start position. -/
def DrawnAt (s : State) (x0 y0 n : Nat) (x : Fin 64) (y : Fin 32) : Prop :=
  ∃ r c, r < n ∧ c < 8 ∧ x.val = x0 + c ∧ y.val = y0 + r ∧ (s.byteAt (s.i.toNat + r)).getLsbD (7 - c) = true

/-- The state with the sound timer forgotten. -/
def State.eraseSound (s : State) : State := { s with st := 0 }

/-- An outcome with its next state mapped. -/
def mapNext (f : State → State) : Host.Outcome State Fault Refusal → Host.Outcome State Fault Refusal
  | .next s => .next (f s)
  | .fault r => .fault r
  | .refused r => .refused r

end Sys2Proof.Machine
end

