-- ==== Sys2Proof/Certificates/Slice0/Obligations.lean ====
section
/-! DEFINITION. The statements for the provers, from the spec's numbered rules. A statement whose clause rests on a decision the
spec marks as its own, on general knowledge it marks so, or on a choice of the model says so in its docstring. A statement about
an instruction is about its constructor; which words decode to it is said by the statements on encoding, whose numbers outside
families 6 and 7 are the spec's decision D1 (log 10). -/

open Sys2Proof Sys2Proof.Machine

/-- 30_encoding.md, 95_test_vectors.md V30 and §8: words written out from the formats decode as the spec says. The numbers of the
families other than 6 and 7 are the spec's decision D1 (log 10). -/
def Obligations.DecodeOfWrittenWords : Prop :=
  decode [0x60, 0x05] = .ok (.setImm 0 0x05, []) ∧ decode [0x70, 0x03] = .ok (.addImm 0 0x03, []) ∧
  decode [0x80, 0x14, 0xAA] = .ok (.addReg 0 1, [0xAA]) ∧ decodeWord 0x2FFE = some (.call 0xFFE) ∧
  decodeWord 0x00EE = some .ret ∧ decodeWord 0xA123 = some (.setIndex 0x123) ∧
  decodeWord 0xD015 = some (.draw 0 1 5) ∧ decodeWord 0xE5A1 = some (.skipIfKeyNotPressed 5) ∧
  decodeWord 0xF533 = some (.storeBcd 5) ∧ decodeWord 0x5AB1 = none ∧ decodeWord 0x0000 = none ∧
  decode [0x60] = .error .truncated

/-- 40_cycle.md R80, R85: when the bytes at PC decode to a well-formed instruction, the step is exec of it. Nothing stands around
exec: the advance is part of the instruction's meaning (R86). -/
def Obligations.StepRunsDecodedInstruction : Prop :=
  ∀ (s : State) (i : Instr) (rest : List Byte), s.Ready → WellFormed i = true →
    decode (s.byteAt s.pc.toNat :: s.byteAt (s.pc.toNat + 1) :: rest) = .ok (i, rest) → step s = exec i s

/-- 40_cycle.md R87: an unknown instruction is a no-op that advances PC by 2, and the step reports it. The report UNKNOWN(op) is the
spec's decision D19. -/
def Obligations.UnknownInstructionOnlyAdvances : Prop :=
  ∀ s : State, s.Ready → decodeWord s.opAtPc = none →
    s.report = some (.unknown s.opAtPc) ∧ ∃ t, step s = .next t ∧ t.pc = s.pc + 2 ∧ OnlyChanges [.pc] s t

/-- 40_cycle.md R81: a halted engine writes nothing and reports HALTED. The halt is the spec's decision D8. -/
def Obligations.HaltedStepChangesNothing : Prop :=
  ∀ s : State, s.fault.cause ≠ .none → step s = .next s ∧ s.report = some .halted

/-- 40_cycle.md R82, 60_exceptions.md R211: a fetch with PC > 0xFFE takes FETCH_RANGE. The record is the spec's decision D8, its
address D26. -/
def Obligations.FetchBeyondMemoryFaults : Prop :=
  ∀ s : State, s.fault.cause = .none → 0xFFE < s.pc.toNat →
    s.report = some (.faulted .fetchRange) ∧
    ∃ t, step s = .next t ∧ OnlyChanges [.fault] s t ∧
      t.fault = ⟨.fetchRange, s.pc, 0, if 4095 < s.pc.toNat then s.pc else 0x1000⟩

/-- 70_reset_and_hazards.md R240, 10_state.md R24: what reset leaves, whatever the state was. That memory is cleared and the font
installed at every reset is the spec's decision D6, the clear FAULT record D8; the two model fields kept are logs 1 and 2. -/
def Obligations.ResetLeavesTheResetValues : Prop :=
  (∀ s : State, (s.resetOp).pc = 0x0200 ∧ (s.resetOp).i = 0 ∧ (s.resetOp).sp = 0 ∧ (s.resetOp).dt = 0 ∧
    (s.resetOp).st = 0 ∧ (∀ r, (s.resetOp).getV r = 0) ∧ (∀ j, (s.resetOp).entry j = 0) ∧
    (∀ x y, (s.resetOp).fbRead x y = false) ∧ (∀ k, (s.resetOp).keyAt k = false) ∧
    (s.resetOp).fault = ⟨.none, 0, 0, 0⟩ ∧ (s.resetOp).cfg = s.cfg ∧ (s.resetOp).rndDraws = s.rndDraws ∧
    (∀ k : Fin 80, (s.resetOp).byteAt (s.cfg.fontBase.val + k.val) = s.cfg.fontData[k.val]) ∧
    (∀ a, a < s.cfg.fontBase.val ∨ s.cfg.fontBase.val + 80 ≤ a → (s.resetOp).byteAt a = 0)) ∧
  State.reset = State.reset.resetOp ∧ State.reset.cfg = Config.standard

/-- 30_encoding.md R62, R65: the decoder reads back every instruction from its encoding, every operand at every value its field
admits. The numbers are the spec's decision D1. -/
def Obligations.DecodeReadsBackEncode : Prop :=
  ∀ i : Instr, WellFormed i = true →
    decodeWord (encode i) = some i ∧ ∀ rest : List Byte, decode (encodeBytes i ++ rest) = .ok (i, rest)

/-- 30_encoding.md R64: no bit of a known instruction value is dropped, the ignored Y field of the shifts included (R67); hence
the value FAULT.op records is the fetched one (60_exceptions.md R219; log 9). -/
def Obligations.EncodeReadsBackDecode : Prop :=
  ∀ (op : Word) (i : Instr), decodeWord op = some i → encode i = op

/-- 30_encoding.md R64: the rows of the opcode map are pairwise disjoint, and the decoder, written by nested dispatch, agrees with the
map, written as masks and values: it answers the instruction of the row that selects the value, and refuses exactly the values
no row selects. The numbers are the spec's decision D1, exact matching D3. -/
def Obligations.DecoderAgreesWithOpcodeMap : Prop :=
  ∀ op : Word,
    (∀ r r' : OpcodeRow, r ∈ opcodeMap → r' ∈ opcodeMap → r.selects op = true → r'.selects op = true → r = r') ∧
    (∀ i, decodeWord op = some i → i.row ∈ opcodeMap ∧ i.row.selects op = true) ∧
    (decodeWord op = none ↔ WellFormedWord op = false)

/-- 30_encoding.md R66: the unknown values, family by family. Exact matching is the spec's decision D3. -/
def Obligations.UnknownValuesByFamily : Prop :=
  ∀ op : Word, decodeWord op = none ↔
    (fieldF op = 0x0 ∧ fieldNNN op ≠ 0x0E0 ∧ fieldNNN op ≠ 0x0EE) ∨ (fieldF op = 0x5 ∧ fieldN op ≠ 0) ∨
    (fieldF op = 0x8 ∧ fieldN op ∈ [0x8#4, 0x9#4, 0xA#4, 0xB#4, 0xC#4, 0xD#4, 0xF#4]) ∨
    (fieldF op = 0x9 ∧ fieldN op ≠ 0) ∨ (fieldF op = 0xE ∧ fieldNN op ∉ [0x9E#8, 0xA1#8]) ∨
    (fieldF op = 0xF ∧
      fieldNN op ∉ [0x07#8, 0x0A#8, 0x15#8, 0x18#8, 0x1E#8, 0x29#8, 0x33#8, 0x55#8, 0x65#8])

/-- 42_alu.md R120, its encoding 6XNN included. -/
def Obligations.SetImmediateWritesVx : Prop :=
  ∀ (x : Reg) (nn : Byte) (s : State), decodeWord (0x6#4 ++ x ++ nn) = some (.setImm x nn) ∧
    ∃ t, exec (.setImm x nn) s = .next t ∧ t.getV x = nn ∧ t.pc = s.pc + 2 ∧ OnlyChanges [.reg x, .pc] s t

/-- 42_alu.md R121, its encoding 7XNN included: no flag effect. -/
def Obligations.AddImmediateTruncates : Prop :=
  ∀ (x : Reg) (nn : Byte) (s : State), decodeWord (0x7#4 ++ x ++ nn) = some (.addImm x nn) ∧
    ∃ t, exec (.addImm x nn) s = .next t ∧ (t.getV x).toNat = ((s.getV x).toNat + nn.toNat) % 256 ∧
      t.pc = s.pc + 2 ∧ OnlyChanges [.reg x, .pc] s t

/-- 42_alu.md R122 to R125: copy and bitwise combination, no flag effect (VF changes only as the destination). -/
def Obligations.CopyAndLogicWriteOnlyVx : Prop :=
  ∀ (x y : Reg) (s : State),
    (∃ t, exec (.setReg x y) s = .next t ∧ t.getV x = s.getV y ∧ t.pc = s.pc + 2 ∧ OnlyChanges [.reg x, .pc] s t) ∧
    (∃ t, exec (.orReg x y) s = .next t ∧ t.getV x = s.getV x ||| s.getV y ∧ t.pc = s.pc + 2 ∧
      OnlyChanges [.reg x, .pc] s t) ∧
    (∃ t, exec (.andReg x y) s = .next t ∧ t.getV x = s.getV x &&& s.getV y ∧ t.pc = s.pc + 2 ∧
      OnlyChanges [.reg x, .pc] s t) ∧
    (∃ t, exec (.xorReg x y) s = .next t ∧ t.getV x = s.getV x ^^^ s.getV y ∧ t.pc = s.pc + 2 ∧
      OnlyChanges [.reg x, .pc] s t)

/-- 42_alu.md, add X,Y: the sum modulo 256 and the carry; with X = 0xF the carry remains. That operands are read before any write is
the spec's decision D12 (log 14). -/
def Obligations.AddRegistersSetsCarry : Prop :=
  ∀ (x y : Reg) (s : State), ∃ t, exec (.addReg x y) s = .next t ∧
    (x ≠ vf → (t.getV x).toNat = ((s.getV x).toNat + (s.getV y).toNat) % 256) ∧
    t.getV vf = (if (s.getV x).toNat + (s.getV y).toNat > 255 then 1 else 0) ∧
    t.pc = s.pc + 2 ∧ OnlyChanges [.reg x, .reg vf, .pc] s t

/-- 42_alu.md, sub X,Y: the flag is 1 only when Vx > Vy (90_conflicts.md C3), the difference is modulo 256; with X = 0xF the difference
remains. That operands are read before any write is the spec's decision D12 (log 14). -/
def Obligations.SubtractSetsStrictFlag : Prop :=
  ∀ (x y : Reg) (s : State), ∃ t, exec (.subReg x y) s = .next t ∧
    ((t.getV x).toNat : Int) = (((s.getV x).toNat : Int) - (s.getV y).toNat) % 256 ∧
    (x ≠ vf → t.getV vf = if (s.getV x).toNat > (s.getV y).toNat then 1 else 0) ∧
    t.pc = s.pc + 2 ∧ OnlyChanges [.reg x, .reg vf, .pc] s t

/-- 42_alu.md, subn X,Y: the flag is 1 when Vx ≤ Vy, equality included; with X = 0xF the difference remains. That operands are read
before any write is the spec's decision D12 (log 14). -/
def Obligations.ReverseSubtractSetsInclusiveFlag : Prop :=
  ∀ (x y : Reg) (s : State), ∃ t, exec (.subnReg x y) s = .next t ∧
    ((t.getV x).toNat : Int) = (((s.getV y).toNat : Int) - (s.getV x).toNat) % 256 ∧
    (x ≠ vf → t.getV vf = if (s.getV x).toNat ≤ (s.getV y).toNat then 1 else 0) ∧
    t.pc = s.pc + 2 ∧ OnlyChanges [.reg x, .reg vf, .pc] s t

/-- 42_alu.md, the shifts: by one, logical right or left modulo 256, the flag is the bit shifted out, for every Y; with X = 0xF the
shifted value remains. That the operand is read before any write is the spec's decision D12 (log 14). -/
def Obligations.ShiftsMoveOneBitToFlag : Prop :=
  ∀ (x y : Reg) (s : State),
    (∃ t, exec (.shiftRight x y) s = .next t ∧
      (t.getV x).toNat = (s.getV x).toNat / 2 ∧ (x ≠ vf → (t.getV vf).toNat = (s.getV x).toNat % 2) ∧
      t.pc = s.pc + 2 ∧ OnlyChanges [.reg x, .reg vf, .pc] s t) ∧
    (∃ t, exec (.shiftLeft x y) s = .next t ∧
      (t.getV x).toNat = 2 * (s.getV x).toNat % 256 ∧ (x ≠ vf → (t.getV vf).toNat = (s.getV x).toNat / 128) ∧
      t.pc = s.pc + 2 ∧ OnlyChanges [.reg x, .reg vf, .pc] s t)

/-- 42_alu.md, random X,NN: Vx is the next draw ANDed with NN, so no bit outside NN is set, and the draw is used up. That the byte
is an input of the environment is the spec's decision D15; the draw `Config.rnd` at the counter, and the counter, are the model's own
(log 1). `Config.rnd` has no body, so the statement holds for every draw. -/
def Obligations.RandomIsMaskedDraw : Prop :=
  ∀ (x : Reg) (nn : Byte) (s : State), ∃ t, exec (.random x nn) s = .next t ∧
    t.getV x = Config.rnd s.rndDraws &&& nn ∧ t.getV x &&& ~~~nn = 0 ∧ t.rndDraws = s.rndDraws + 1 ∧
    t.pc = s.pc + 2 ∧ OnlyChanges [.reg x, .draws, .pc] s t

/-- 45_keypad_timers.md R172, R174, R175: get-delay, set-delay and set-sound copy between Vx and the timers. That the core makes no
sound is the spec's decision D28. -/
def Obligations.TimerInstructionsCopy : Prop :=
  ∀ (x : Reg) (s : State),
    (∃ t, exec (.getDelay x) s = .next t ∧ t.getV x = s.dt ∧ t.pc = s.pc + 2 ∧ OnlyChanges [.reg x, .pc] s t) ∧
    (∃ t, exec (.setDelay x) s = .next t ∧ t.dt = s.getV x ∧ t.pc = s.pc + 2 ∧ OnlyChanges [.delay, .pc] s t) ∧
    (∃ t, exec (.setSound x) s = .next t ∧ t.st = s.getV x ∧ t.pc = s.pc + 2 ∧ OnlyChanges [.sound, .pc] s t)

/-- 43_index_memory.md R140: I gets the 12-bit address, its upper four bits 0. -/
def Obligations.SetIndexWritesI : Prop :=
  ∀ (nnn : Addr12) (s : State), ∃ t, exec (.setIndex nnn) s = .next t ∧ t.i.toNat = nnn.toNat ∧
    t.pc = s.pc + 2 ∧ OnlyChanges [.index, .pc] s t

/-- 43_index_memory.md, add-to-index: the sum modulo 65536 (the spec's decision D21), no flag, no fault. -/
def Obligations.AddToIndexWrapsAt65536 : Prop :=
  ∀ (x : Reg) (s : State), ∃ t, exec (.addToIndex x) s = .next t ∧
    t.i.toNat = (s.i.toNat + (s.getV x).toNat) % 65536 ∧ t.pc = s.pc + 2 ∧ OnlyChanges [.index, .pc] s t

/-- 43_index_memory.md, load-font-address: FONT_BASE + 5 * d for the low four bits d of Vx (the spec's decision D13), for every
FONT_BASE. -/
def Obligations.LoadFontAddressComputesGlyph : Prop :=
  ∀ (x : Reg) (s : State), ∃ t, exec (.loadFontAddress x) s = .next t ∧
    t.i.toNat = s.cfg.fontBase.val + 5 * ((s.getV x).toNat % 16) ∧ t.pc = s.pc + 2 ∧ OnlyChanges [.index, .pc] s t

/-- 43_index_memory.md, 10_state.md: while the font stands in memory, load-font-address points I at the five bytes of the digit's
glyph, for every FONT_BASE and FONT_DATA. The low nibble is the spec's decision D13. -/
def Obligations.LoadedAddressHoldsTheGlyph : Prop :=
  ∀ (x : Reg) (s t : State), (∀ k : Fin 80, s.byteAt (s.cfg.fontBase.val + k.val) = s.cfg.fontData[k.val]) →
    exec (.loadFontAddress x) s = .next t →
    ∀ (d : Fin 16) (r : Fin 5), (s.getV x).toNat % 16 = d.val →
      t.byteAt (t.i.toNat + r.val) = s.cfg.fontData[5 * d.val + r.val]

/-- 41_control_flow.md R101. -/
def Obligations.JumpGoesToNNN : Prop :=
  ∀ (nnn : Addr12) (s : State), ∃ t, exec (.jump nnn) s = .next t ∧ t.pc.toNat = nnn.toNat ∧ OnlyChanges [.pc] s t

/-- 41_control_flow.md, jump-offset: NNN + V0, not reduced modulo 4096, with no generic advance (an inference the spec marks). -/
def Obligations.JumpOffsetAddsV0 : Prop :=
  ∀ (nnn : Addr12) (s : State), ∃ t, exec (.jumpOffset nnn) s = .next t ∧
    t.pc.toNat = nnn.toNat + (s.getV v0).toNat ∧ OnlyChanges [.pc] s t

/-- 41_control_flow.md, call: with fewer than 16 entries in use call pushes PC + 2 and goes to NNN; with 16 it raises STACK_OVERFLOW
and writes nothing else. The value pushed is 90_conflicts.md C1; the stack convention and the record are the spec's decisions D10
and D8 (logs 19 and 4). -/
def Obligations.CallPushesOrOverflows : Prop :=
  ∀ (nnn : Addr12) (s : State),
    (∀ h : s.sp.toNat < 16, ∃ t, exec (.call nnn) s = .next t ∧ t.entry ⟨s.sp.toNat, h⟩ = s.pc + 2 ∧
      t.sp.toNat = s.sp.toNat + 1 ∧ t.pc.toNat = nnn.toNat ∧
      OnlyChanges [.stackEntry ⟨s.sp.toNat, h⟩, .sp, .pc] s t) ∧
    (s.sp.toNat = 16 → ∃ t, exec (.call nnn) s = .next t ∧ t.fault.cause = .stackOverflow ∧ OnlyChanges [.fault] s t)

/-- 41_control_flow.md, return: with 1 to 16 entries in use return pops the top one into PC, which keeps its value (the spec's
decision D10); with none it raises STACK_UNDERFLOW and writes nothing else. -/
def Obligations.ReturnPopsOrUnderflows : Prop :=
  ∀ s : State,
    (∀ j : Fin 16, s.sp.toNat = j.val + 1 → ∃ t, exec .ret s = .next t ∧ t.pc = s.entry j ∧ t.sp.toNat = j.val ∧
      OnlyChanges [.sp, .pc] s t) ∧
    (s.sp.toNat = 0 → ∃ t, exec .ret s = .next t ∧ t.fault.cause = .stackUnderflow ∧ OnlyChanges [.fault] s t)

/-- The model's choice (log 5): in a state with SP > 16, which 10_state.md R16 says is never reached, call and return stop, the
entry they name not existing. -/
def Obligations.IllegalStackPointerStops : Prop :=
  ∀ (nnn : Addr12) (s : State), 16 < s.sp.toNat →
    exec (.call nnn) s = .fault .stackPointerIllegal ∧ exec .ret s = .fault .stackPointerIllegal

/-- 41_control_flow.md R103 to R106: net +4 if the condition holds, else +2. -/
def Obligations.SkipsCompare : Prop :=
  ∀ (x y : Reg) (nn : Byte) (s : State),
    (∃ t, exec (.skipIfEqual x nn) s = .next t ∧ t.pc = (if s.getV x = nn then s.pc + 4 else s.pc + 2) ∧
      OnlyChanges [.pc] s t) ∧
    (∃ t, exec (.skipIfNotEqual x nn) s = .next t ∧ t.pc = (if s.getV x = nn then s.pc + 2 else s.pc + 4) ∧
      OnlyChanges [.pc] s t) ∧
    (∃ t, exec (.skipIfRegEqual x y) s = .next t ∧ t.pc = (if s.getV x = s.getV y then s.pc + 4 else s.pc + 2) ∧
      OnlyChanges [.pc] s t) ∧
    (∃ t, exec (.skipIfRegNotEqual x y) s = .next t ∧ t.pc = (if s.getV x = s.getV y then s.pc + 2 else s.pc + 4) ∧
      OnlyChanges [.pc] s t)

/-- 45_keypad_timers.md, the key skips: the key named by the low four bits of Vx (the spec's decision D13). -/
def Obligations.KeySkipsTestTheKey : Prop :=
  ∀ (x : Reg) (s : State) (k : Fin 16), (s.getV x).toNat % 16 = k.val →
    (∃ t, exec (.skipIfKeyPressed x) s = .next t ∧ t.pc = (if s.keyAt k then s.pc + 4 else s.pc + 2) ∧
      OnlyChanges [.pc] s t) ∧
    (∃ t, exec (.skipIfKeyNotPressed x) s = .next t ∧ t.pc = (if s.keyAt k then s.pc + 2 else s.pc + 4) ∧
      OnlyChanges [.pc] s t)

/-- 45_keypad_timers.md, wait-for-key: the least pressed key and the advance, or, with no key pressed, nothing at all. The level
test and the least number are the spec's decision D14. -/
def Obligations.WaitForKeyTakesTheLeastKey : Prop :=
  ∀ (x : Reg) (s : State),
    (∀ k : Fin 16, s.keyAt k = true → (∀ j : Fin 16, j < k → s.keyAt j = false) →
      ∃ t, exec (.waitForKey x) s = .next t ∧ (t.getV x).toNat = k.val ∧ t.pc = s.pc + 2 ∧
        OnlyChanges [.reg x, .pc] s t) ∧
    ((∀ k : Fin 16, s.keyAt k = false) → exec (.waitForKey x) s = .next s)

/-- 43_index_memory.md, store-bcd: the three digits at I, I + 1, I + 2 and no other byte; DATA_RANGE when I > 4093, nothing written.
The check before the first write and the record are the spec's decisions D9, D8 and D26 (log 16). The premise is the canonical
memory list, an invariant (StepKeepsInvariant). -/
def Obligations.StoreBcdWritesThreeDigits : Prop :=
  ∀ (x : Reg) (s : State), Memory.wf s.cfg s.mem = true →
    (s.i.toNat + 2 ≤ 4095 → ∃ t, exec (.storeBcd x) s = .next t ∧
      (t.byteAt s.i.toNat).toNat = (s.getV x).toNat / 100 ∧
      (t.byteAt (s.i.toNat + 1)).toNat = (s.getV x).toNat / 10 % 10 ∧
      (t.byteAt (s.i.toNat + 2)).toNat = (s.getV x).toNat % 10 ∧ t.pc = s.pc + 2 ∧
      OnlyChanges [.byte s.i.toNat, .byte (s.i.toNat + 1), .byte (s.i.toNat + 2), .pc] s t) ∧
    (s.i.toNat + 2 > 4095 → ∃ t, exec (.storeBcd x) s = .next t ∧ t.fault.cause = .dataRange ∧
      t.fault.addr.toNat = max s.i.toNat 4096 ∧ OnlyChanges [.fault] s t)

/-- 43_index_memory.md, store-registers: V0 .. Vx to I .. I + X and no other byte, I unchanged; DATA_RANGE when I + X > 4095, nothing
written. The check before the first write and the record are the spec's decisions D9, D8 and D26 (log 16). The premise is the
canonical memory list, an invariant (StepKeepsInvariant). -/
def Obligations.StoreRegistersWritesTheBlock : Prop :=
  ∀ (x : Reg) (s : State), Memory.wf s.cfg s.mem = true →
    (s.i.toNat + x.toNat ≤ 4095 → ∃ t, exec (.storeRegisters x) s = .next t ∧
      (∀ r : Reg, r ≤ x → t.byteAt (s.i.toNat + r.toNat) = s.getV r) ∧ t.pc = s.pc + 2 ∧
      Frame (fun p => p = .pc ∨ ∃ k, k ≤ x.toNat ∧ p = .byte (s.i.toNat + k)) s t) ∧
    (s.i.toNat + x.toNat > 4095 → ∃ t, exec (.storeRegisters x) s = .next t ∧ t.fault.cause = .dataRange ∧
      t.fault.addr.toNat = max s.i.toNat 4096 ∧ OnlyChanges [.fault] s t)

/-- 43_index_memory.md, load-registers: I .. I + X to V0 .. Vx and no other register, I and memory unchanged; DATA_RANGE when
I + X > 4095, no register written. The check before the first read and the record are the spec's decisions D9, D8 and D26
(log 16). -/
def Obligations.LoadRegistersReadsTheBlock : Prop :=
  ∀ (x : Reg) (s : State),
    (s.i.toNat + x.toNat ≤ 4095 → ∃ t, exec (.loadRegisters x) s = .next t ∧
      (∀ r : Reg, r ≤ x → t.getV r = s.byteAt (s.i.toNat + r.toNat)) ∧ t.pc = s.pc + 2 ∧
      Frame (fun p => p = .pc ∨ ∃ r : Reg, r ≤ x ∧ p = .reg r) s t) ∧
    (s.i.toNat + x.toNat > 4095 → ∃ t, exec (.loadRegisters x) s = .next t ∧ t.fault.cause = .dataRange ∧
      t.fault.addr.toNat = max s.i.toNat 4096 ∧ OnlyChanges [.fault] s t)

/-- 44_display.md R160. -/
def Obligations.ClearScreenTurnsAllPixelsOff : Prop :=
  ∀ s : State, ∃ t, exec .clearScreen s = .next t ∧ (∀ x y, t.fbRead x y = false) ∧ t.pc = s.pc + 2 ∧
    Frame (fun p => p = .pc ∨ ∃ x y, p = .pixel x y) s t

/-- 44_display.md, draw: the start position wraps, the sprite clips; a pixel changes exactly when a drawn 1 bit lands on it, and VF
is 1 exactly when some such pixel was on. Bit 7 leftmost is the spec's decision D18 (log 11), the check of all N rows D9, and that
the coordinates are read before VF is written D12 (log 14). -/
def Obligations.DrawXorsClippedSprite : Prop :=
  ∀ (x y : Reg) (n : BitVec 4) (s : State), (n = 0 ∨ s.i.toNat + n.toNat - 1 ≤ 4095) →
    ∃ t, exec (.draw x y n) s = .next t ∧
      (∀ px py, (t.fbRead px py ≠ s.fbRead px py ↔
        DrawnAt s ((s.getV x).toNat % 64) ((s.getV y).toNat % 32) n.toNat px py)) ∧
      (t.getV vf = 0 ∨ t.getV vf = 1) ∧
      (t.getV vf = 1 ↔ ∃ px py, s.fbRead px py = true ∧
        DrawnAt s ((s.getV x).toNat % 64) ((s.getV y).toNat % 32) n.toNat px py) ∧
      t.pc = s.pc + 2 ∧ Frame (fun p => p = .pc ∨ p = .reg vf ∨ ∃ px py, p = .pixel px py) s t

/-- 95_test_vectors.md S5 with 90_conflicts.md C7: the same sprite drawn twice at the same position restores every pixel, and VF after
the second draw is 1 exactly when some drawn pixel was off before the first. The premise on the registers says that the position is
the same (the first draw writes VF, which may be X or Y). -/
def Obligations.DrawTwiceRestoresTheScreen : Prop :=
  ∀ (x y : Reg) (n : BitVec 4) (s t : State), (n = 0 ∨ s.i.toNat + n.toNat - 1 ≤ 4095) →
    exec (.draw x y n) s = .next t →
    (t.getV x).toNat % 64 = (s.getV x).toNat % 64 → (t.getV y).toNat % 32 = (s.getV y).toNat % 32 →
    ∃ u, exec (.draw x y n) t = .next u ∧ (∀ px py, u.fbRead px py = s.fbRead px py) ∧
      (u.getV vf = 1 ↔ ∃ px py, s.fbRead px py = false ∧
        DrawnAt s ((s.getV x).toNat % 64) ((s.getV y).toNat % 32) n.toNat px py)

/-- 60_exceptions.md, fault entry and the table of the causes: an instruction that raises changes nothing but FAULT, which gets the
cause, PC, the instruction's value and the address. Precision and the record are the spec's decision D8, the address D26. -/
def Obligations.InstructionFaultsArePrecise : Prop :=
  ∀ (i : Instr) (s : State) (r : Raise), raises s i = some r →
    ∃ t, exec i s = .next t ∧ t.fault = ⟨r.cause, s.pc, encode i, r.addr⟩ ∧ OnlyChanges [.fault] s t

/-- 10_state.md section 2 (who writes what), 20_memory.md section 2, for every instruction: one that raises nothing and answers a next
state changes nothing outside its footprint, FAULT included. The premise on memory is an invariant (StepKeepsInvariant). -/
def Obligations.EveryInstructionKeepsToItsFootprint : Prop :=
  ∀ (i : Instr) (s t : State), Memory.wf s.cfg s.mem = true → raises s i = none → exec i s = .next t →
    Frame (Footprint s i) s t

/-- The invariant holds at reset: 10_state.md R24 with the bounds of R14, R16 and 41_control_flow.md. -/
def Obligations.InvariantHoldsAtReset : Prop := State.reset.Inv

/-- Every step keeps the invariant: the canonical memory, SP in 0 .. 16, PC at most 0x10FE, stack entries at most 0x1000, and a fault
record that describes the halted state (inferences the spec marks in 10_state.md and 41_control_flow.md, and decision D8). -/
def Obligations.StepKeepsInvariant : Prop := ∀ s t : State, s.Inv → step s = .next t → t.Inv

/-- 49_host_interface.md: reset establishes the invariant from any state, and every other operation of the outside agents keeps it. -/
def Obligations.OperationsKeepInvariant : Prop :=
  (∀ s : State, (s.apply .reset).Inv) ∧ ∀ (s : State) (o : HostOp), s.Inv → (s.apply o).Inv

/-- 40_cycle.md, 49_host_interface.md (R200): from every state that meets the invariant, every history of steps and outside operations
runs to its end with a next state that meets it; the engine never stops the model. -/
def Obligations.EveryHistoryRunsAndKeepsInvariant : Prop :=
  ∀ (es : List Event) (s : State), s.Inv → ∃ t, s.runEvents es = .next t ∧ t.Inv

/-- 10_state.md section 2: which instruction a step must execute for a part of the state to change; no step changes KEY. -/
def Obligations.StepChangesOnlyWhatItsInstructionOwns : Prop :=
  ∀ s t : State, step s = .next t →
    t.key = s.key ∧ t.cfg = s.cfg ∧
    (t.dt ≠ s.dt → ∃ x, s.Executes (.setDelay x)) ∧ (t.st ≠ s.st → ∃ x, s.Executes (.setSound x)) ∧
    (t.i ≠ s.i → (∃ nnn, s.Executes (.setIndex nnn)) ∨ (∃ x, s.Executes (.addToIndex x)) ∨
      ∃ x, s.Executes (.loadFontAddress x)) ∧
    (t.sp ≠ s.sp → s.Executes .ret ∨ ∃ nnn, s.Executes (.call nnn)) ∧
    (t.stack ≠ s.stack → ∃ nnn, s.Executes (.call nnn)) ∧
    (t.fb ≠ s.fb → s.Executes .clearScreen ∨ ∃ x y n, s.Executes (.draw x y n)) ∧
    (t.mem ≠ s.mem → (∃ x, s.Executes (.storeBcd x)) ∨ ∃ x, s.Executes (.storeRegisters x))

/-- 10_state.md, flag register: a step changes VF only by one of the six flag writers or by an instruction that names register 0xF as
its destination (load-registers 0xF among them). -/
def Obligations.FlagChangesOnlyByItsWriters : Prop :=
  ∀ s t : State, step s = .next t → t.getV vf ≠ s.getV vf →
    ∃ i, s.Executes i ∧ (writesFlag i = true ∨ destination i = some vf ∨ i = .loadRegisters vf)

/-- 10_state.md, 60_exceptions.md: a recorded fault does not change by steps, key writes, ticks and loads; only reset clears it. The
sticky record is the spec's decision D8. -/
def Obligations.FaultRecordIsStickyUntilReset : Prop :=
  ∀ (s t : State) (es : List Event), s.fault.cause ≠ .none → Event.op .reset ∉ es → s.runEvents es = .next t →
    t.fault = s.fault ∧ t.pc = s.pc ∧ t.v = s.v ∧ t.i = s.i ∧ t.sp = s.sp ∧ t.stack = s.stack ∧ t.fb = s.fb

/-- 95_test_vectors.md S6 (source §8): call then return comes back to the instruction after the call with the stack pointer it had.
That the stack entry keeps its value is the spec's decision D10 (log 19). -/
def Obligations.CallThenReturnComesBack : Prop :=
  ∀ (nnn : Addr12) (s t : State) (h : s.sp.toNat < 16), exec (.call nnn) s = .next t →
    ∃ u, exec .ret t = .next u ∧ u.pc = s.pc + 2 ∧ u.sp = s.sp ∧ OnlyChanges [.pc, .stackEntry ⟨s.sp.toNat, h⟩] s u

/-- 95_test_vectors.md S7 (source §8): store-registers then load-registers with I unchanged restores the registers, and the bytes
stored are the registers even if the registers are overwritten in between (`w` is any register file). -/
def Obligations.StoreThenLoadRestoresRegisters : Prop :=
  ∀ (x : Reg) (s t : State) (w : Vector Byte 16), Memory.wf s.cfg s.mem = true → s.i.toNat + x.toNat ≤ 4095 →
    exec (.storeRegisters x) s = .next t →
    ∃ u, exec (.loadRegisters x) { t with v := w } = .next u ∧ ∀ r : Reg, r ≤ x → u.getV r = s.getV r

/-- 20_memory.md section 3 (instruction-fetch coherence, an inference the spec marks): bytes that store-registers puts at the next PC are
what the next step fetches. -/
def Obligations.StoredBytesAreFetchedNext : Prop :=
  ∀ (x r : Reg) (s t : State), Memory.wf s.cfg s.mem = true → s.i.toNat + x.toNat ≤ 4095 → r.toNat + 1 ≤ x.toNat →
    s.i.toNat + r.toNat = s.pc.toNat + 2 → exec (.storeRegisters x) s = .next t →
    t.fetch = .ok (wordOfBytes (s.getV r) (s.getV (r + 1)))

/-- 49_host_interface.md, status_read: `awaiting_key` is 1 exactly when the next step returns WAITING, and that step changes nothing.
The flag and the outcome are the spec's decisions D8, D19. -/
def Obligations.AwaitingKeyMeansNextStepWaits : Prop :=
  ∀ s : State, (s.awaitingKey = true ↔ s.report = some .waiting) ∧ (s.awaitingKey = true → step s = .next s)

/-- 40_cycle.md, step outcome: the report can be read off the states: FAULTED exactly when this step recorded the fault, HALTED
exactly when one was recorded (decision D19), and a report is given exactly when the step answers a next state (the model's own,
log 5). -/
def Obligations.ReportAgreesWithStep : Prop :=
  ∀ s : State, (s.report = none ↔ ∀ t, step s ≠ .next t) ∧
    ∀ t, step s = .next t →
      (s.report = some .halted ↔ s.fault.cause ≠ .none) ∧
      ∀ c, (s.report = some (.faulted c) ↔ s.fault.cause = .none ∧ t.fault.cause = c ∧ c ≠ .none)

/-- 49_host_interface.md, timer_tick: each timer down by one if not zero, nothing else. Stopping at zero and the common tick are the
spec's decision D16. -/
def Obligations.TimerTickCountsDownToZero : Prop :=
  ∀ s : State, (s.timerTick).dt.toNat = s.dt.toNat - 1 ∧ (s.timerTick).st.toNat = s.st.toNat - 1 ∧
    OnlyChanges [.delay, .sound] s s.timerTick

/-- 49_host_interface.md R194: key_write sets the one flag and nothing else, no other operation but reset changes KEY, and no step
does. -/
def Obligations.KeyChangesOnlyByKeyWrite : Prop :=
  ∀ s : State,
    (∀ (k : Fin 16) (b : Bool), (s.keyWrite k b).keyAt k = b ∧ OnlyChanges [.key k] s (s.keyWrite k b)) ∧
    (∀ t, step s = .next t → t.key = s.key) ∧ (s.timerTick).key = s.key ∧
    (∀ bytes, (s.loadProgram bytes).2.key = s.key) ∧ ∀ k, (s.resetOp).keyAt k = false

/-- 49_host_interface.md, load_program: a program of at most 3584 bytes is copied to 0x200 and up and nothing else changes (a plain
memory write at any time: the spec's decision D23). The premise on memory is an invariant (OperationsKeepInvariant). -/
def Obligations.LoadProgramCopiesTheBytes : Prop :=
  ∀ (s : State) (bytes : List Byte), Memory.wf s.cfg s.mem = true → bytes.length ≤ 3584 →
    (s.loadProgram bytes).1 = .loaded ∧
    (∀ k (h : k < bytes.length), (s.loadProgram bytes).2.byteAt (0x200 + k) = bytes[k]) ∧
    Frame (fun p => ∃ k, k < bytes.length ∧ p = .byte (0x200 + k)) s (s.loadProgram bytes).2

/-- 60_exceptions.md R215: a program that is too large is refused and changes nothing. -/
def Obligations.TooLargeProgramIsRefused : Prop :=
  ∀ (s : State) (bytes : List Byte), bytes.length > 3584 → s.loadProgram bytes = (.romTooLarge, s)

/-- 40_cycle.md, no halt instruction (an inference the spec marks): a jump to itself is a fixed point of the step. -/
def Obligations.SelfJumpIsFixedPoint : Prop :=
  ∀ (s : State) (nnn : Addr12), s.Executes (.jump nnn) → nnn.toNat = s.pc.toNat → step s = .next s ∧ s.report = some .ok

/-- The model's own (log 17): in canonical form equal contents are equal data, so that two states compare as the memories they
stand for. -/
def Obligations.CanonicalMemoryIsItsContents : Prop :=
  ∀ (c : Config) (m m' : Memory), Memory.wf c m = true → Memory.wf c m' = true →
    (∀ a, a < 4096 → Memory.read c m a = Memory.read c m' a) → m = m'

/-- 10_state.md: "no instruction reads ST": two states that differ only in the sound timer step to states that differ only in it, with
the same report. Both steps take the same draw of random (log 1). -/
def Obligations.SoundTimerDoesNotInfluenceExecution : Prop :=
  ∀ (s : State) (b : Byte),
    mapNext State.eraseSound (step { s with st := b }) = mapNext State.eraseSound (step s) ∧
    ({ s with st := b } : State).report = s.report

/-- 40_cycle.md, the cycle and its step outcome: which of the five outcomes the step reports, for every state. HALTED: a fault was
recorded. UNKNOWN of a value: it is the value at PC and decodes to nothing. FAULTED: the fetch is out of range, or the instruction
at PC raises. WAITING: wait-for-key with no key pressed. OK: any other known instruction that completes. The outcomes are the
spec's decision D19, the halt and the record D8; the premise that the instruction completes leaves out the model's stop (log 5). -/
def Obligations.ReportNamesWhatTheStepDid : Prop :=
  ∀ s : State,
    (s.report = some .halted ↔ s.fault.cause ≠ .none) ∧
    (∀ op, s.report = some (.unknown op) ↔ s.Ready ∧ decodeWord s.opAtPc = none ∧ op = s.opAtPc) ∧
    (∀ c, s.report = some (.faulted c) ↔
      (s.fault.cause = .none ∧ 0xFFE < s.pc.toNat ∧ c = .fetchRange) ∨
      ∃ i r, s.Executes i ∧ raises s i = some r ∧ c = r.cause) ∧
    (s.report = some .waiting ↔ ∃ x, s.Executes (.waitForKey x) ∧ ∀ k, s.keyAt k = false) ∧
    (s.report = some .ok ↔ ∃ i t, s.Executes i ∧ raises s i = none ∧ exec i s = .next t ∧
      ¬((∃ x, i = .waitForKey x) ∧ ∀ k, s.keyAt k = false))
end

