-- ==== Sys2Proof/Laws/State.lean ====
section
/-! SUPPORT. One lemma per field per update of the state, true by rfl, and what each update does to the observers. -/

namespace Sys2Proof.Machine

/-! ### setV -/

@[simp] theorem State.setV_mem (s : State) (x : Reg) (b : Byte) : (s.setV x b).mem = s.mem := rfl
@[simp] theorem State.setV_i (s : State) (x : Reg) (b : Byte) : (s.setV x b).i = s.i := rfl
@[simp] theorem State.setV_pc (s : State) (x : Reg) (b : Byte) : (s.setV x b).pc = s.pc := rfl
@[simp] theorem State.setV_stack (s : State) (x : Reg) (b : Byte) : (s.setV x b).stack = s.stack := rfl
@[simp] theorem State.setV_sp (s : State) (x : Reg) (b : Byte) : (s.setV x b).sp = s.sp := rfl
@[simp] theorem State.setV_dt (s : State) (x : Reg) (b : Byte) : (s.setV x b).dt = s.dt := rfl
@[simp] theorem State.setV_st (s : State) (x : Reg) (b : Byte) : (s.setV x b).st = s.st := rfl
@[simp] theorem State.setV_fb (s : State) (x : Reg) (b : Byte) : (s.setV x b).fb = s.fb := rfl
@[simp] theorem State.setV_key (s : State) (x : Reg) (b : Byte) : (s.setV x b).key = s.key := rfl
@[simp] theorem State.setV_fault (s : State) (x : Reg) (b : Byte) : (s.setV x b).fault = s.fault := rfl
@[simp] theorem State.setV_cfg (s : State) (x : Reg) (b : Byte) : (s.setV x b).cfg = s.cfg := rfl
@[simp] theorem State.setV_rndDraws (s : State) (x : Reg) (b : Byte) : (s.setV x b).rndDraws = s.rndDraws := rfl

/-! ### setByte -/

@[simp] theorem State.setByte_v (s : State) (a : Nat) (b : Byte) : (s.setByte a b).v = s.v := rfl
@[simp] theorem State.setByte_i (s : State) (a : Nat) (b : Byte) : (s.setByte a b).i = s.i := rfl
@[simp] theorem State.setByte_pc (s : State) (a : Nat) (b : Byte) : (s.setByte a b).pc = s.pc := rfl
@[simp] theorem State.setByte_stack (s : State) (a : Nat) (b : Byte) : (s.setByte a b).stack = s.stack := rfl
@[simp] theorem State.setByte_sp (s : State) (a : Nat) (b : Byte) : (s.setByte a b).sp = s.sp := rfl
@[simp] theorem State.setByte_dt (s : State) (a : Nat) (b : Byte) : (s.setByte a b).dt = s.dt := rfl
@[simp] theorem State.setByte_st (s : State) (a : Nat) (b : Byte) : (s.setByte a b).st = s.st := rfl
@[simp] theorem State.setByte_fb (s : State) (a : Nat) (b : Byte) : (s.setByte a b).fb = s.fb := rfl
@[simp] theorem State.setByte_key (s : State) (a : Nat) (b : Byte) : (s.setByte a b).key = s.key := rfl
@[simp] theorem State.setByte_fault (s : State) (a : Nat) (b : Byte) : (s.setByte a b).fault = s.fault := rfl
@[simp] theorem State.setByte_cfg (s : State) (a : Nat) (b : Byte) : (s.setByte a b).cfg = s.cfg := rfl
@[simp] theorem State.setByte_rndDraws (s : State) (a : Nat) (b : Byte) : (s.setByte a b).rndDraws = s.rndDraws := rfl

/-! ### advance -/

@[simp] theorem State.advance_mem (s : State) : (s.advance).mem = s.mem := rfl
@[simp] theorem State.advance_v (s : State) : (s.advance).v = s.v := rfl
@[simp] theorem State.advance_i (s : State) : (s.advance).i = s.i := rfl
@[simp] theorem State.advance_stack (s : State) : (s.advance).stack = s.stack := rfl
@[simp] theorem State.advance_sp (s : State) : (s.advance).sp = s.sp := rfl
@[simp] theorem State.advance_dt (s : State) : (s.advance).dt = s.dt := rfl
@[simp] theorem State.advance_st (s : State) : (s.advance).st = s.st := rfl
@[simp] theorem State.advance_fb (s : State) : (s.advance).fb = s.fb := rfl
@[simp] theorem State.advance_key (s : State) : (s.advance).key = s.key := rfl
@[simp] theorem State.advance_fault (s : State) : (s.advance).fault = s.fault := rfl
@[simp] theorem State.advance_cfg (s : State) : (s.advance).cfg = s.cfg := rfl
@[simp] theorem State.advance_rndDraws (s : State) : (s.advance).rndDraws = s.rndDraws := rfl

/-! ### raise -/

@[simp] theorem State.raise_mem (s : State) (r : Raise) (op : Word) : (s.raise r op).mem = s.mem := rfl
@[simp] theorem State.raise_v (s : State) (r : Raise) (op : Word) : (s.raise r op).v = s.v := rfl
@[simp] theorem State.raise_i (s : State) (r : Raise) (op : Word) : (s.raise r op).i = s.i := rfl
@[simp] theorem State.raise_pc (s : State) (r : Raise) (op : Word) : (s.raise r op).pc = s.pc := rfl
@[simp] theorem State.raise_stack (s : State) (r : Raise) (op : Word) : (s.raise r op).stack = s.stack := rfl
@[simp] theorem State.raise_sp (s : State) (r : Raise) (op : Word) : (s.raise r op).sp = s.sp := rfl
@[simp] theorem State.raise_dt (s : State) (r : Raise) (op : Word) : (s.raise r op).dt = s.dt := rfl
@[simp] theorem State.raise_st (s : State) (r : Raise) (op : Word) : (s.raise r op).st = s.st := rfl
@[simp] theorem State.raise_fb (s : State) (r : Raise) (op : Word) : (s.raise r op).fb = s.fb := rfl
@[simp] theorem State.raise_key (s : State) (r : Raise) (op : Word) : (s.raise r op).key = s.key := rfl
@[simp] theorem State.raise_cfg (s : State) (r : Raise) (op : Word) : (s.raise r op).cfg = s.cfg := rfl
@[simp] theorem State.raise_rndDraws (s : State) (r : Raise) (op : Word) : (s.raise r op).rndDraws = s.rndDraws := rfl

/-! ### setEntry -/

@[simp] theorem State.setEntry_mem (s : State) (j : Fin 16) (w : Word) : (s.setEntry j w).mem = s.mem := rfl
@[simp] theorem State.setEntry_v (s : State) (j : Fin 16) (w : Word) : (s.setEntry j w).v = s.v := rfl
@[simp] theorem State.setEntry_i (s : State) (j : Fin 16) (w : Word) : (s.setEntry j w).i = s.i := rfl
@[simp] theorem State.setEntry_pc (s : State) (j : Fin 16) (w : Word) : (s.setEntry j w).pc = s.pc := rfl
@[simp] theorem State.setEntry_sp (s : State) (j : Fin 16) (w : Word) : (s.setEntry j w).sp = s.sp := rfl
@[simp] theorem State.setEntry_dt (s : State) (j : Fin 16) (w : Word) : (s.setEntry j w).dt = s.dt := rfl
@[simp] theorem State.setEntry_st (s : State) (j : Fin 16) (w : Word) : (s.setEntry j w).st = s.st := rfl
@[simp] theorem State.setEntry_fb (s : State) (j : Fin 16) (w : Word) : (s.setEntry j w).fb = s.fb := rfl
@[simp] theorem State.setEntry_key (s : State) (j : Fin 16) (w : Word) : (s.setEntry j w).key = s.key := rfl
@[simp] theorem State.setEntry_fault (s : State) (j : Fin 16) (w : Word) : (s.setEntry j w).fault = s.fault := rfl
@[simp] theorem State.setEntry_cfg (s : State) (j : Fin 16) (w : Word) : (s.setEntry j w).cfg = s.cfg := rfl
@[simp] theorem State.setEntry_rndDraws (s : State) (j : Fin 16) (w : Word) : (s.setEntry j w).rndDraws = s.rndDraws := rfl

/-! ### skipIf -/

@[simp] theorem State.skipIf_mem (s : State) (p : Bool) : (s.skipIf p).mem = s.mem := rfl
@[simp] theorem State.skipIf_v (s : State) (p : Bool) : (s.skipIf p).v = s.v := rfl
@[simp] theorem State.skipIf_i (s : State) (p : Bool) : (s.skipIf p).i = s.i := rfl
@[simp] theorem State.skipIf_stack (s : State) (p : Bool) : (s.skipIf p).stack = s.stack := rfl
@[simp] theorem State.skipIf_sp (s : State) (p : Bool) : (s.skipIf p).sp = s.sp := rfl
@[simp] theorem State.skipIf_dt (s : State) (p : Bool) : (s.skipIf p).dt = s.dt := rfl
@[simp] theorem State.skipIf_st (s : State) (p : Bool) : (s.skipIf p).st = s.st := rfl
@[simp] theorem State.skipIf_fb (s : State) (p : Bool) : (s.skipIf p).fb = s.fb := rfl
@[simp] theorem State.skipIf_key (s : State) (p : Bool) : (s.skipIf p).key = s.key := rfl
@[simp] theorem State.skipIf_fault (s : State) (p : Bool) : (s.skipIf p).fault = s.fault := rfl
@[simp] theorem State.skipIf_cfg (s : State) (p : Bool) : (s.skipIf p).cfg = s.cfg := rfl
@[simp] theorem State.skipIf_rndDraws (s : State) (p : Bool) : (s.skipIf p).rndDraws = s.rndDraws := rfl

/-! ### keyWrite -/

@[simp] theorem State.keyWrite_mem (s : State) (k : Fin 16) (b : Bool) : (s.keyWrite k b).mem = s.mem := rfl
@[simp] theorem State.keyWrite_v (s : State) (k : Fin 16) (b : Bool) : (s.keyWrite k b).v = s.v := rfl
@[simp] theorem State.keyWrite_i (s : State) (k : Fin 16) (b : Bool) : (s.keyWrite k b).i = s.i := rfl
@[simp] theorem State.keyWrite_pc (s : State) (k : Fin 16) (b : Bool) : (s.keyWrite k b).pc = s.pc := rfl
@[simp] theorem State.keyWrite_stack (s : State) (k : Fin 16) (b : Bool) : (s.keyWrite k b).stack = s.stack := rfl
@[simp] theorem State.keyWrite_sp (s : State) (k : Fin 16) (b : Bool) : (s.keyWrite k b).sp = s.sp := rfl
@[simp] theorem State.keyWrite_dt (s : State) (k : Fin 16) (b : Bool) : (s.keyWrite k b).dt = s.dt := rfl
@[simp] theorem State.keyWrite_st (s : State) (k : Fin 16) (b : Bool) : (s.keyWrite k b).st = s.st := rfl
@[simp] theorem State.keyWrite_fb (s : State) (k : Fin 16) (b : Bool) : (s.keyWrite k b).fb = s.fb := rfl
@[simp] theorem State.keyWrite_fault (s : State) (k : Fin 16) (b : Bool) : (s.keyWrite k b).fault = s.fault := rfl
@[simp] theorem State.keyWrite_cfg (s : State) (k : Fin 16) (b : Bool) : (s.keyWrite k b).cfg = s.cfg := rfl
@[simp] theorem State.keyWrite_rndDraws (s : State) (k : Fin 16) (b : Bool) : (s.keyWrite k b).rndDraws = s.rndDraws := rfl

/-! ### timerTick -/

@[simp] theorem State.timerTick_mem (s : State) : (s.timerTick).mem = s.mem := rfl
@[simp] theorem State.timerTick_v (s : State) : (s.timerTick).v = s.v := rfl
@[simp] theorem State.timerTick_i (s : State) : (s.timerTick).i = s.i := rfl
@[simp] theorem State.timerTick_pc (s : State) : (s.timerTick).pc = s.pc := rfl
@[simp] theorem State.timerTick_stack (s : State) : (s.timerTick).stack = s.stack := rfl
@[simp] theorem State.timerTick_sp (s : State) : (s.timerTick).sp = s.sp := rfl
@[simp] theorem State.timerTick_fb (s : State) : (s.timerTick).fb = s.fb := rfl
@[simp] theorem State.timerTick_key (s : State) : (s.timerTick).key = s.key := rfl
@[simp] theorem State.timerTick_fault (s : State) : (s.timerTick).fault = s.fault := rfl
@[simp] theorem State.timerTick_cfg (s : State) : (s.timerTick).cfg = s.cfg := rfl
@[simp] theorem State.timerTick_rndDraws (s : State) : (s.timerTick).rndDraws = s.rndDraws := rfl

/-! ### The fields an update writes -/

@[simp] theorem State.advance_pc (s : State) : s.advance.pc = s.pc + 2 := rfl
@[simp] theorem State.raise_fault (s : State) (r : Raise) (op : Word) :
    (s.raise r op).fault = ⟨r.cause, s.pc, op, r.addr⟩ := rfl
@[simp] theorem State.skipIf_pc (s : State) (p : Bool) : (s.skipIf p).pc = if p then s.pc + 4 else s.pc + 2 := rfl

/-! ### Observers: each depends on its own fields -/

@[simp] theorem State.setV_byteAt (s : State) (x : Reg) (b : Byte) (q : Nat) : (s.setV x b).byteAt q = s.byteAt q := rfl
@[simp] theorem State.setV_entry (s : State) (x : Reg) (b : Byte) (q : Fin 16) : (s.setV x b).entry q = s.entry q := rfl
@[simp] theorem State.setV_fbRead (s : State) (x : Reg) (b : Byte) (q : Fin 64) (q' : Fin 32) : (s.setV x b).fbRead q q' = s.fbRead q q' := rfl
@[simp] theorem State.setV_keyAt (s : State) (x : Reg) (b : Byte) (q : Fin 16) : (s.setV x b).keyAt q = s.keyAt q := rfl

@[simp] theorem State.setByte_getV (s : State) (a : Nat) (b : Byte) (q : Reg) : (s.setByte a b).getV q = s.getV q := rfl
@[simp] theorem State.setByte_entry (s : State) (a : Nat) (b : Byte) (q : Fin 16) : (s.setByte a b).entry q = s.entry q := rfl
@[simp] theorem State.setByte_fbRead (s : State) (a : Nat) (b : Byte) (q : Fin 64) (q' : Fin 32) : (s.setByte a b).fbRead q q' = s.fbRead q q' := rfl
@[simp] theorem State.setByte_keyAt (s : State) (a : Nat) (b : Byte) (q : Fin 16) : (s.setByte a b).keyAt q = s.keyAt q := rfl

@[simp] theorem State.advance_getV (s : State) (q : Reg) : (s.advance).getV q = s.getV q := rfl
@[simp] theorem State.advance_byteAt (s : State) (q : Nat) : (s.advance).byteAt q = s.byteAt q := rfl
@[simp] theorem State.advance_entry (s : State) (q : Fin 16) : (s.advance).entry q = s.entry q := rfl
@[simp] theorem State.advance_fbRead (s : State) (q : Fin 64) (q' : Fin 32) : (s.advance).fbRead q q' = s.fbRead q q' := rfl
@[simp] theorem State.advance_keyAt (s : State) (q : Fin 16) : (s.advance).keyAt q = s.keyAt q := rfl

@[simp] theorem State.raise_getV (s : State) (r : Raise) (op : Word) (q : Reg) : (s.raise r op).getV q = s.getV q := rfl
@[simp] theorem State.raise_byteAt (s : State) (r : Raise) (op : Word) (q : Nat) : (s.raise r op).byteAt q = s.byteAt q := rfl
@[simp] theorem State.raise_entry (s : State) (r : Raise) (op : Word) (q : Fin 16) : (s.raise r op).entry q = s.entry q := rfl
@[simp] theorem State.raise_fbRead (s : State) (r : Raise) (op : Word) (q : Fin 64) (q' : Fin 32) : (s.raise r op).fbRead q q' = s.fbRead q q' := rfl
@[simp] theorem State.raise_keyAt (s : State) (r : Raise) (op : Word) (q : Fin 16) : (s.raise r op).keyAt q = s.keyAt q := rfl

@[simp] theorem State.setEntry_getV (s : State) (j : Fin 16) (w : Word) (q : Reg) : (s.setEntry j w).getV q = s.getV q := rfl
@[simp] theorem State.setEntry_byteAt (s : State) (j : Fin 16) (w : Word) (q : Nat) : (s.setEntry j w).byteAt q = s.byteAt q := rfl
@[simp] theorem State.setEntry_fbRead (s : State) (j : Fin 16) (w : Word) (q : Fin 64) (q' : Fin 32) : (s.setEntry j w).fbRead q q' = s.fbRead q q' := rfl
@[simp] theorem State.setEntry_keyAt (s : State) (j : Fin 16) (w : Word) (q : Fin 16) : (s.setEntry j w).keyAt q = s.keyAt q := rfl

@[simp] theorem State.skipIf_getV (s : State) (p : Bool) (q : Reg) : (s.skipIf p).getV q = s.getV q := rfl
@[simp] theorem State.skipIf_byteAt (s : State) (p : Bool) (q : Nat) : (s.skipIf p).byteAt q = s.byteAt q := rfl
@[simp] theorem State.skipIf_entry (s : State) (p : Bool) (q : Fin 16) : (s.skipIf p).entry q = s.entry q := rfl
@[simp] theorem State.skipIf_fbRead (s : State) (p : Bool) (q : Fin 64) (q' : Fin 32) : (s.skipIf p).fbRead q q' = s.fbRead q q' := rfl
@[simp] theorem State.skipIf_keyAt (s : State) (p : Bool) (q : Fin 16) : (s.skipIf p).keyAt q = s.keyAt q := rfl

@[simp] theorem State.keyWrite_getV (s : State) (k : Fin 16) (b : Bool) (q : Reg) : (s.keyWrite k b).getV q = s.getV q := rfl
@[simp] theorem State.keyWrite_byteAt (s : State) (k : Fin 16) (b : Bool) (q : Nat) : (s.keyWrite k b).byteAt q = s.byteAt q := rfl
@[simp] theorem State.keyWrite_entry (s : State) (k : Fin 16) (b : Bool) (q : Fin 16) : (s.keyWrite k b).entry q = s.entry q := rfl
@[simp] theorem State.keyWrite_fbRead (s : State) (k : Fin 16) (b : Bool) (q : Fin 64) (q' : Fin 32) : (s.keyWrite k b).fbRead q q' = s.fbRead q q' := rfl

@[simp] theorem State.timerTick_getV (s : State) (q : Reg) : (s.timerTick).getV q = s.getV q := rfl
@[simp] theorem State.timerTick_byteAt (s : State) (q : Nat) : (s.timerTick).byteAt q = s.byteAt q := rfl
@[simp] theorem State.timerTick_entry (s : State) (q : Fin 16) : (s.timerTick).entry q = s.entry q := rfl
@[simp] theorem State.timerTick_fbRead (s : State) (q : Fin 64) (q' : Fin 32) : (s.timerTick).fbRead q q' = s.fbRead q q' := rfl
@[simp] theorem State.timerTick_keyAt (s : State) (q : Fin 16) : (s.timerTick).keyAt q = s.keyAt q := rfl

theorem State.setV_getV (s : State) (x y : Reg) (b : Byte) :
    (s.setV x b).getV y = if x = y then b else s.getV y := by
  simp only [State.getV, State.setV, Vector.getElem_set, BitVec.toNat_inj]

@[simp] theorem State.setV_getV_self (s : State) (x : Reg) (b : Byte) : (s.setV x b).getV x = b := by
  simp [State.setV_getV]

theorem State.setV_getV_of_ne (s : State) {x y : Reg} (b : Byte) (h : x ≠ y) : (s.setV x b).getV y = s.getV y := by
  simp [State.setV_getV, h]

theorem State.setEntry_entry (s : State) (j k : Fin 16) (w : Word) :
    (s.setEntry j w).entry k = if j = k then w else s.entry k := by
  simp only [State.entry, State.setEntry, Vector.getElem_set, Fin.ext_iff]

theorem State.keyWrite_keyAt (s : State) (j k : Fin 16) (b : Bool) :
    (s.keyWrite j b).keyAt k = if j = k then b else s.keyAt k := by
  simp only [State.keyAt, State.keyWrite, Vector.getElem_set, Fin.ext_iff]

end Sys2Proof.Machine
end

