-- ==== Sys2Proof/Laws/Memory.lean ====
section
/-! SUPPORT. What the memory operations do: a read after a write, and that every operation keeps the canonical form. -/

namespace Sys2Proof.Machine

/-! ### The canonical list -/

theorem Memory.wf_cons {c : Config} {a : Nat} {b : Byte} {m : Memory} :
    Memory.wf c ((a, b) :: m) = true ↔
      a < 4096 ∧ b ≠ Memory.unlisted c a ∧ (∀ e ∈ m, a < e.1) ∧ Memory.wf c m = true := by
  simp [Memory.wf, and_assoc]

/-- An address below every entry is unlisted. -/
theorem Memory.lookup_of_lt {m : Memory} {a : Nat} (h : ∀ e ∈ m, a < e.1) : Memory.lookup m a = none := by
  induction m with
  | nil => rfl
  | cons e m ih =>
    have he : a < e.1 := h e (by simp)
    rw [Memory.lookup, if_neg (by omega)]
    exact ih fun e' h' => h e' (by simp [h'])

theorem Memory.mem_entry {c : Config} {m : Memory} {a : Nat} {b : Byte} {e : Nat × Byte}
    (h : e ∈ Memory.entry c a b m) : e ∈ m ∨ e.1 = a := by
  rw [Memory.entry] at h
  split at h
  · exact .inl h
  · rcases List.mem_cons.1 h with rfl | h
    · exact .inr rfl
    · exact .inl h

theorem Memory.entry_wf {c : Config} {m : Memory} {a : Nat} (b : Byte) (ha : a < 4096) (hlt : ∀ e ∈ m, a < e.1)
    (hm : Memory.wf c m = true) : Memory.wf c (Memory.entry c a b m) = true := by
  rw [Memory.entry]
  split
  · exact hm
  · exact Memory.wf_cons.2 ⟨ha, by assumption, hlt, hm⟩

theorem Memory.read_cons {c : Config} {m : Memory} {k a : Nat} {w : Byte} :
    Memory.read c ((k, w) :: m) a = if a = k then w else Memory.read c m a := by
  by_cases h : a = k <;> simp [Memory.read, Memory.lookup, h]

theorem Memory.read_entry {c : Config} {m : Memory} {a : Nat} (b : Byte) (hlt : ∀ e ∈ m, a < e.1) (a' : Nat) :
    Memory.read c (Memory.entry c a b m) a' = if a' = a then b else Memory.read c m a' := by
  rw [Memory.entry]
  split
  · split
    · subst_vars
      simp [Memory.read, Memory.lookup_of_lt hlt]
    · rfl
  · exact Memory.read_cons

/-- Every entry that `write` lists stood in the list before or is at the address written. -/
theorem Memory.mem_write {c : Config} {m : Memory} {a : Nat} {b : Byte} {e : Nat × Byte}
    (h : e ∈ Memory.write c m a b) : e ∈ m ∨ e.1 = a := by
  induction m with
  | nil => exact Memory.mem_entry h
  | cons k m ih =>
    rw [Memory.write] at h
    split_ifs at h
    · exact Memory.mem_entry h
    · exact (Memory.mem_entry h).imp_left (List.mem_cons_of_mem _)
    · rcases List.mem_cons.1 h with rfl | h
      · exact .inl List.mem_cons_self
      · exact (ih h).imp_left (List.mem_cons_of_mem _)

theorem Memory.lt_all_cons {m : Memory} {a k : Nat} {w : Byte} (h : a < k) (hlt : ∀ e ∈ m, k < e.1) :
    ∀ e ∈ (k, w) :: m, a < e.1 := by
  intro e he
  rcases List.mem_cons.1 he with rfl | he
  · exact h
  · exact Nat.lt_trans h (hlt e he)

/-- A write keeps the canonical form. -/
theorem Memory.write_wf {c : Config} {m : Memory} {a : Nat} (b : Byte) (ha : a < 4096) (hm : Memory.wf c m = true) :
    Memory.wf c (Memory.write c m a b) = true := by
  induction m with
  | nil => exact Memory.entry_wf b ha (by simp) rfl
  | cons k m ih =>
    obtain ⟨hk, hw, hlt, hm'⟩ := Memory.wf_cons.1 hm
    rw [Memory.write]
    split_ifs with h1 h2
    · exact Memory.entry_wf b ha (Memory.lt_all_cons h1 hlt) hm
    · exact Memory.entry_wf b ha (h2 ▸ hlt) hm'
    · refine Memory.wf_cons.2 ⟨hk, hw, fun e he => ?_, ih hm'⟩
      rcases Memory.mem_write he with he | he
      · exact hlt e he
      · omega

/-- A read after a write: the value written at the address written, every other byte as before. -/
theorem Memory.read_write {c : Config} {m : Memory} {a : Nat} (b : Byte) (hm : Memory.wf c m = true) (a' : Nat) :
    Memory.read c (Memory.write c m a b) a' = if a' = a then b else Memory.read c m a' := by
  induction m with
  | nil => exact Memory.read_entry b (by simp) a'
  | cons k m ih =>
    obtain ⟨-, -, hlt, hm'⟩ := Memory.wf_cons.1 hm
    rcases Nat.lt_trichotomy a k.1 with h | rfl | h
    · rw [Memory.write, if_pos h]
      exact Memory.read_entry b (Memory.lt_all_cons h hlt) a'
    · rw [Memory.write, if_neg (Nat.lt_irrefl _), if_pos rfl, Memory.read_entry b hlt, Memory.read_cons]
      split <;> rfl
    · rw [Memory.write, if_neg (by omega), if_neg (by omega), Memory.read_cons, Memory.read_cons, ih hm']
      by_cases h' : a' = k.1
      · rw [if_pos h', if_neg (by omega), if_pos h']
      · rw [if_neg h', if_neg h']

/-- Memory at reset: nothing is listed, which is canonical. -/
theorem Memory.wf_nil (c : Config) : Memory.wf c [] = true := rfl

/-- The memory list of the state is canonical. -/
abbrev State.MemoryWf (s : State) : Prop := Memory.wf s.cfg s.mem = true

/-! ### Bytes of the state -/

theorem State.setByte_memoryWf {s : State} {a : Nat} (b : Byte) (ha : a < 4096) (h : s.MemoryWf) :
    (s.setByte a b).MemoryWf := Memory.write_wf b ha h

theorem State.setByte_byteAt {s : State} {a : Nat} (b : Byte) (h : s.MemoryWf) (a' : Nat) :
    (s.setByte a b).byteAt a' = if a' = a then b else s.byteAt a' := Memory.read_write b h a'

/-- What a state is that differs from `s` at most in memory, its list canonical, the byte at `a` being `f a`. -/
structure State.MemoryIs (s t : State) (f : Nat → Byte) : Prop where
  rest : t = { s with mem := t.mem }
  wf : t.MemoryWf
  bytes : ∀ a, t.byteAt a = f a

/-- The contents of memory after the bytes of a list are written from address `a` up. -/
def bytesFrom (f : Nat → Byte) (a : Nat) (bs : List Byte) (a' : Nat) : Byte :=
  if h : a ≤ a' ∧ a' < a + bs.length then bs[a' - a]'(by omega) else f a'

theorem bytesFrom_cons (f : Nat → Byte) (a : Nat) (b : Byte) (bs : List Byte) (a' : Nat) :
    bytesFrom (fun k => if k = a then b else f k) (a + 1) bs a' = bytesFrom f a (b :: bs) a' := by
  simp only [bytesFrom, List.length_cons]
  rcases Nat.lt_trichotomy a' a with h | rfl | h
  · rw [dif_neg (by omega), dif_neg (by omega), if_neg (by omega)]
  · rw [dif_neg (by omega), dif_pos (by omega)]
    simp
  · by_cases hl : a' < a + 1 + bs.length
    · obtain ⟨d, rfl⟩ : ∃ d, a' = a + 1 + d := ⟨a' - (a + 1), by omega⟩
      rw [dif_pos (by omega), dif_pos (by omega)]
      simp [show a + 1 + d - a = d + 1 by omega]
    · rw [dif_neg (by omega), dif_neg (by omega), if_neg (by omega)]

theorem State.memRead_of_le {s : State} {a : Nat} (h : a ≤ 4095) : s.memRead a = .ok (s.byteAt a) := by
  rw [State.memRead, if_neg (by omega)]

theorem State.memWrite_of_le {s : State} {a : Nat} {b : Byte} (h : a ≤ 4095) :
    s.memWrite a b = .ok (s.setByte a b) := by
  rw [State.memWrite, if_neg (by omega)]

/-- Reading bytes inside the address space answers them. -/
theorem State.memReadBytes_of_le {s : State} {a n : Nat} (h : a + n ≤ 4096) :
    s.memReadBytes a n = .ok ((List.range n).map fun k => s.byteAt (a + k)) := by
  induction n generalizing a with
  | zero => rfl
  | succ n ih =>
    simp only [State.memReadBytes, State.memRead_of_le (show a ≤ 4095 by omega), ih (show a + 1 + n ≤ 4096 by omega)]
    simp only [List.range_succ_eq_map, List.map_cons, List.map_map, Nat.add_zero]
    simp [Function.comp_def, Nat.add_assoc, Nat.add_comm 1, bind, pure, Except.bind, Except.pure]

/-- Writing bytes inside the address space completes and writes exactly them. -/
theorem State.memWriteBytes_of_le {s : State} {a : Nat} {bs : List Byte} (h : a + bs.length ≤ 4096) (hm : s.MemoryWf) :
    ∃ t, s.memWriteBytes a bs = .ok t ∧ s.MemoryIs t (bytesFrom s.byteAt a bs) := by
  induction bs generalizing s a with
  | nil => exact ⟨s, rfl, rfl, hm, fun a' => by rw [bytesFrom, dif_neg (by simp)]⟩
  | cons b bs ih =>
    rw [List.length_cons] at h
    obtain ⟨t, ht, hrest, hwf, hbytes⟩ :=
      ih (s := s.setByte a b) (a := a + 1) (by omega) (State.setByte_memoryWf b (by omega) hm)
    refine ⟨t, ?_, hrest, hwf, fun a' => ?_⟩
    · rw [State.memWriteBytes, State.memWrite_of_le (by omega)]
      exact ht
    · rw [hbytes, ← bytesFrom_cons]
      exact congrArg (fun f => bytesFrom f (a + 1) bs a') (funext (State.setByte_byteAt b hm))

/-- The unchecked form of the same, for load_program. -/
theorem State.setBytes_spec {s : State} {a : Nat} {bs : List Byte} (h : a + bs.length ≤ 4096) (hm : s.MemoryWf) :
    s.MemoryIs (s.setBytes a bs) (bytesFrom s.byteAt a bs) := by
  induction bs generalizing s a with
  | nil => exact ⟨rfl, hm, fun a' => by rw [bytesFrom, dif_neg (by simp)]; rfl⟩
  | cons b bs ih =>
    rw [List.length_cons] at h
    obtain ⟨hrest, hwf, hbytes⟩ :=
      ih (s := s.setByte a b) (a := a + 1) (by omega) (State.setByte_memoryWf b (by omega) hm)
    refine ⟨hrest, hwf, fun a' => ?_⟩
    rw [State.setBytes, hbytes, ← bytesFrom_cons]
    exact congrArg (fun f => bytesFrom f (a + 1) bs a') (funext (State.setByte_byteAt b hm))

/-! ### Range check and fetch -/

theorem State.checkRange_of_le {s : State} {n : Nat} (h : n = 0 ∨ s.i.toNat + n ≤ 4096) : s.checkRange n = .ok ⟨⟩ := by
  rw [State.checkRange, if_neg (by omega)]

theorem State.checkRange_of_gt {s : State} {n : Nat} (hn : 0 < n) (h : 4096 < s.i.toNat + n) :
    s.checkRange n = .error ⟨.dataRange, BitVec.ofNat 16 (max s.i.toNat 4096)⟩ := by
  rw [State.checkRange, if_pos ⟨hn, h⟩]

/-- The fetch answers `{MEM[PC], MEM[PC+1]}` exactly when PC ≤ 0xFFE. -/
theorem State.fetch_of_le {s : State} (h : s.pc.toNat ≤ 0xFFE) : s.fetch = .ok s.opAtPc := by
  rw [State.fetch, State.memReadWord, if_neg (by omega), if_neg (by omega), State.opAtPc]

theorem State.fetch_of_gt {s : State} (h : 0xFFE < s.pc.toNat) :
    s.fetch = .error ⟨.fetchRange, if 4095 < s.pc.toNat then s.pc else 0x1000⟩ := by
  rw [State.fetch, State.memReadWord]
  by_cases hp : 4095 < s.pc.toNat
  · rw [if_pos hp, if_pos hp, BitVec.ofNat_toNat, BitVec.setWidth_eq]
  · have : s.pc.toNat = 4095 := by omega
    rw [if_neg (by omega), if_pos (by omega), if_neg hp, this]
    rfl

end Sys2Proof.Machine
end

