-- ==== Sys2Proof/Laws/Display.lean ====
section
/-! SUPPORT. What drawing does to the framebuffer, pixel by pixel. -/

namespace Sys2Proof.Machine

theorem Framebuffer.get_flip (fb : Framebuffer) (x px : Fin 64) (y py : Fin 32) :
    (fb.flip x y).get px py = if px = x ∧ py = y then !fb.get x y else fb.get px py := by
  simp only [Framebuffer.get, Framebuffer.flip, Vector.getElem_set, Fin.ext_iff]
  by_cases hy : y.val = py.val
  · by_cases hx : x.val = px.val
    · simp [hx, hy]
    · have hx' : ¬ px.val = x.val := fun h => hx h.symm
      simp [hx, hx', hy]
  · have hy' : ¬ py.val = y.val := fun h => hy h.symm
    simp [hy, hy']

@[simp] theorem Framebuffer.get_clear (x : Fin 64) (y : Fin 32) : Framebuffer.clear.get x y = false := by
  simp [Framebuffer.get, Framebuffer.clear]

theorem State.fbRead_eq (s : State) (x : Fin 64) (y : Fin 32) : s.fbRead x y = s.fb.get x y := rfl

/-- `cv'` is `cv` with exactly the pixels of `d` flipped, and `hit` set if one of them was on. -/
structure Canvas.Flips (cv cv' : Canvas) (d : Fin 64 → Fin 32 → Prop) : Prop where
  on : ∀ x y, d x y → cv'.fb.get x y = !cv.fb.get x y
  off : ∀ x y, ¬ d x y → cv'.fb.get x y = cv.fb.get x y
  hit : cv'.hit = true ↔ cv.hit = true ∨ ∃ x y, d x y ∧ cv.fb.get x y = true

theorem Canvas.Flips.refl (cv : Canvas) : cv.Flips cv fun _ _ => False :=
  ⟨fun _ _ h => h.elim, fun _ _ _ => rfl, by simp⟩

/-- Flipping disjoint sets of pixels one after the other flips their union. -/
theorem Canvas.Flips.trans {cv cv₁ cv₂ : Canvas} {d₁ d₂ : Fin 64 → Fin 32 → Prop} (h₁ : cv.Flips cv₁ d₁)
    (h₂ : cv₁.Flips cv₂ d₂) (hd : ∀ x y, d₁ x y → ¬ d₂ x y) : cv.Flips cv₂ fun x y => d₁ x y ∨ d₂ x y where
  on x y h := by
    rcases h with h | h
    · rw [h₂.off x y (hd x y h), h₁.on x y h]
    · rw [h₂.on x y h, h₁.off x y fun h' => hd x y h' h]
  off x y h := by rw [h₂.off x y fun h' => h (.inr h'), h₁.off x y fun h' => h (.inl h')]
  hit := by
    rw [h₂.hit, h₁.hit, or_assoc]
    refine or_congr_right ⟨?_, ?_⟩
    · rintro (⟨x, y, h, hp⟩ | ⟨x, y, h, hp⟩)
      · exact ⟨x, y, .inl h, hp⟩
      · exact ⟨x, y, .inr h, by rwa [h₁.off x y fun h' => hd x y h' h] at hp⟩
    · rintro ⟨x, y, h | h, hp⟩
      · exact .inl ⟨x, y, h, hp⟩
      · exact .inr ⟨x, y, h, by rwa [h₁.off x y fun h' => hd x y h' h]⟩

theorem Canvas.Flips.congr {cv cv' : Canvas} {d d' : Fin 64 → Fin 32 → Prop} (h : cv.Flips cv' d)
    (hd : ∀ x y, d x y ↔ d' x y) : cv.Flips cv' d' := by
  rwa [show d' = d from funext fun x => funext fun y => propext (hd x y).symm]

theorem Canvas.plot_flips (cv : Canvas) (x y : Nat) (bit : Bool) :
    cv.Flips (cv.plot x y bit) fun px py => px.val = x ∧ py.val = y ∧ bit = true := by
  rw [Canvas.plot]
  split
  · next h =>
    split
    · next hb =>
      refine ⟨fun px py hp => ?_, fun px py hp => ?_, ?_⟩
      · obtain ⟨rfl, rfl, -⟩ := hp
        simp [Framebuffer.get_flip]
      · have : ¬ (px = ⟨x, h.1⟩ ∧ py = ⟨y, h.2⟩) := fun h' => hp ⟨by simp [h'.1], by simp [h'.2], hb⟩
        simp [Framebuffer.get_flip, this]
      · rw [Bool.or_eq_true]
        refine or_congr_right ⟨fun hp => ⟨_, _, ⟨rfl, rfl, hb⟩, hp⟩, ?_⟩
        rintro ⟨px, py, ⟨rfl, rfl, -⟩, hp⟩
        exact hp
    · next hb => exact (Canvas.Flips.refl cv).congr fun px py => by simp [hb]
  · next h =>
    refine (Canvas.Flips.refl cv).congr fun px py => ⟨fun h => h.elim, ?_⟩
    rintro ⟨rfl, rfl, -⟩
    exact h ⟨px.isLt, py.isLt⟩

/-- One sprite row flips the pixels its 1 bits land on. -/
theorem Canvas.drawRow_flips (cv : Canvas) (x0 y : Nat) (row : Byte) :
    cv.Flips (cv.drawRow x0 y row) fun px py =>
      ∃ c, c < 8 ∧ px.val = x0 + c ∧ py.val = y ∧ row.getLsbD (7 - c) = true := by
  suffices h : ∀ n, cv.Flips ((List.range n).foldl (fun acc c => acc.plot (x0 + c) y (row.getLsbD (7 - c))) cv)
      fun px py => ∃ c, c < n ∧ px.val = x0 + c ∧ py.val = y ∧ row.getLsbD (7 - c) = true from h 8
  intro n
  induction n with
  | zero => exact (Canvas.Flips.refl cv).congr fun px py => by simp
  | succ n ih =>
    rw [List.range_succ, List.foldl_append]
    refine (ih.trans (Canvas.plot_flips _ (x0 + n) y _) ?_).congr fun px py => ⟨?_, ?_⟩
    · rintro px py ⟨c, hc, hx, -, -⟩ ⟨hx', -, -⟩
      omega
    · rintro (⟨c, hc, h⟩ | h)
      · exact ⟨c, by omega, h⟩
      · exact ⟨n, by omega, h⟩
    · rintro ⟨c, hc, h⟩
      rcases Nat.lt_succ_iff_lt_or_eq.1 hc with hc | rfl
      · exact .inl ⟨c, hc, h⟩
      · exact .inr h

/-- The rows of a sprite flip the pixels their 1 bits land on. -/
theorem Canvas.drawRows_flips (cv : Canvas) (x0 y : Nat) (rows : List Byte) :
    cv.Flips (cv.drawRows x0 y rows) fun px py =>
      ∃ r c, ∃ h : r < rows.length, c < 8 ∧ px.val = x0 + c ∧ py.val = y + r ∧ rows[r].getLsbD (7 - c) = true := by
  induction rows generalizing cv y with
  | nil => exact (Canvas.Flips.refl cv).congr fun px py => by simp
  | cons row rows ih =>
    refine ((Canvas.drawRow_flips cv x0 y row).trans (ih _ (y + 1)) ?_).congr fun px py => ⟨?_, ?_⟩
    · rintro px py ⟨c, -, -, hy, -⟩ ⟨r, c', -, -, -, hy', -⟩
      omega
    · rintro (⟨c, hc, hx, hy, hb⟩ | ⟨r, c, hr, hc, hx, hy, hb⟩)
      · exact ⟨0, c, by simp, hc, hx, by omega, by simpa using hb⟩
      · exact ⟨r + 1, c, by simpa using hr, hc, hx, by omega, by simpa using hb⟩
    · rintro ⟨r, c, hr, hc, hx, hy, hb⟩
      cases r with
      | zero => exact .inl ⟨c, hc, hx, by omega, by simpa using hb⟩
      | succ r => exact .inr ⟨r, c, by simpa using hr, hc, hx, by omega, by simpa using hb⟩

end Sys2Proof.Machine
end

