-- ==== Sys2Proof/Laws/Encoding.lean ====
section
/-! SUPPORT. The fields of an encoded instruction, over the naturals. -/

namespace Sys2Proof

theorem toNat_join {w v : Nat} (a : BitVec w) (b : BitVec v) : (a ++ b).toNat = a.toNat * 2 ^ v + b.toNat := by
  rw [BitVec.toNat_append, ← Nat.shiftLeft_add_eq_or_of_lt b.isLt, Nat.shiftLeft_eq]

/-! ### The value of each format (30_encoding.md R62) -/

theorem toNat_formatNNN (f : BitVec 4) (nnn : Addr12) : (f ++ nnn : Word).toNat = f.toNat * 4096 + nnn.toNat :=
  toNat_join f nnn

theorem toNat_formatXNN (f : BitVec 4) (x : Reg) (nn : Byte) :
    (f ++ x ++ nn : Word).toNat = f.toNat * 4096 + x.toNat * 256 + nn.toNat := by
  refine (toNat_join (f ++ x) nn).trans ?_
  rw [toNat_join f x]
  omega

theorem toNat_formatXYN (f : BitVec 4) (x y : Reg) (n : BitVec 4) :
    (f ++ x ++ y ++ n : Word).toNat = f.toNat * 4096 + x.toNat * 256 + y.toNat * 16 + n.toNat := by
  refine (toNat_join (f ++ x ++ y) n).trans ?_
  rw [toNat_join (f ++ x) y, toNat_join f x]
  omega

theorem toNat_wordOfBytes (a b : Byte) : (wordOfBytes a b).toNat = a.toNat * 256 + b.toNat := toNat_join a b

/-! ### The value of each field (30_encoding.md R61) -/

theorem toNat_fieldF (op : Word) : (fieldF op).toNat = op.toNat / 4096 := by
  have := op.isLt
  rw [fieldF, BitVec.extractLsb'_toNat, Nat.shiftRight_eq_div_pow]
  omega

theorem toNat_fieldX (op : Word) : (fieldX op).toNat = op.toNat / 256 % 16 := by
  rw [fieldX, BitVec.extractLsb'_toNat, Nat.shiftRight_eq_div_pow]

theorem toNat_fieldY (op : Word) : (fieldY op).toNat = op.toNat / 16 % 16 := by
  rw [fieldY, BitVec.extractLsb'_toNat, Nat.shiftRight_eq_div_pow]

theorem toNat_fieldN (op : Word) : (fieldN op).toNat = op.toNat % 16 := by
  rw [fieldN, BitVec.extractLsb'_toNat, Nat.shiftRight_zero]

theorem toNat_fieldNN (op : Word) : (fieldNN op).toNat = op.toNat % 256 := by
  rw [fieldNN, BitVec.extractLsb'_toNat, Nat.shiftRight_zero]

theorem toNat_fieldNNN (op : Word) : (fieldNNN op).toNat = op.toNat % 4096 := by
  rw [fieldNNN, BitVec.extractLsb'_toNat, Nat.shiftRight_zero]

/-! ### The fields of an encoded instruction -/

@[simp] theorem fieldF_formatNNN (f : BitVec 4) (nnn : Addr12) : fieldF (f ++ nnn) = f := by
  have := nnn.isLt
  apply BitVec.eq_of_toNat_eq
  rw [toNat_fieldF, toNat_formatNNN]
  omega

@[simp] theorem fieldNNN_formatNNN (f : BitVec 4) (nnn : Addr12) : fieldNNN (f ++ nnn) = nnn := by
  have := nnn.isLt
  apply BitVec.eq_of_toNat_eq
  rw [toNat_fieldNNN, toNat_formatNNN]
  omega

@[simp] theorem fieldF_formatXNN (f : BitVec 4) (x : Reg) (nn : Byte) : fieldF (f ++ x ++ nn) = f := by
  have := x.isLt
  have := nn.isLt
  apply BitVec.eq_of_toNat_eq
  rw [toNat_fieldF, toNat_formatXNN]
  omega

@[simp] theorem fieldX_formatXNN (f : BitVec 4) (x : Reg) (nn : Byte) : fieldX (f ++ x ++ nn) = x := by
  have := x.isLt
  have := nn.isLt
  apply BitVec.eq_of_toNat_eq
  rw [toNat_fieldX, toNat_formatXNN]
  omega

@[simp] theorem fieldNN_formatXNN (f : BitVec 4) (x : Reg) (nn : Byte) : fieldNN (f ++ x ++ nn) = nn := by
  have := nn.isLt
  apply BitVec.eq_of_toNat_eq
  rw [toNat_fieldNN, toNat_formatXNN]
  omega

@[simp] theorem fieldF_formatXYN (f : BitVec 4) (x y : Reg) (n : BitVec 4) : fieldF (f ++ x ++ y ++ n) = f := by
  have := x.isLt
  have := y.isLt
  have := n.isLt
  apply BitVec.eq_of_toNat_eq
  rw [toNat_fieldF, toNat_formatXYN]
  omega

@[simp] theorem fieldX_formatXYN (f : BitVec 4) (x y : Reg) (n : BitVec 4) : fieldX (f ++ x ++ y ++ n) = x := by
  have := x.isLt
  have := y.isLt
  have := n.isLt
  apply BitVec.eq_of_toNat_eq
  rw [toNat_fieldX, toNat_formatXYN]
  omega

@[simp] theorem fieldY_formatXYN (f : BitVec 4) (x y : Reg) (n : BitVec 4) : fieldY (f ++ x ++ y ++ n) = y := by
  have := y.isLt
  have := n.isLt
  apply BitVec.eq_of_toNat_eq
  rw [toNat_fieldY, toNat_formatXYN]
  omega

@[simp] theorem fieldN_formatXYN (f : BitVec 4) (x y : Reg) (n : BitVec 4) : fieldN (f ++ x ++ y ++ n) = n := by
  have := n.isLt
  apply BitVec.eq_of_toNat_eq
  rw [toNat_fieldN, toNat_formatXYN]
  omega

/-! ### An instruction value from its fields and its bytes -/

theorem formatNNN_fields (op : Word) : fieldF op ++ fieldNNN op = op := by
  apply BitVec.eq_of_toNat_eq
  rw [toNat_formatNNN, toNat_fieldF, toNat_fieldNNN]
  omega

theorem formatXNN_fields (op : Word) : fieldF op ++ fieldX op ++ fieldNN op = op := by
  apply BitVec.eq_of_toNat_eq
  rw [toNat_formatXNN, toNat_fieldF, toNat_fieldX, toNat_fieldNN]
  omega

theorem formatXYN_fields (op : Word) : fieldF op ++ fieldX op ++ fieldY op ++ fieldN op = op := by
  apply BitVec.eq_of_toNat_eq
  rw [toNat_formatXYN, toNat_fieldF, toNat_fieldX, toNat_fieldY, toNat_fieldN]
  omega

@[simp] theorem wordOfBytes_bytes (op : Word) : wordOfBytes (firstByte op) (secondByte op) = op := by
  have := op.isLt
  apply BitVec.eq_of_toNat_eq
  rw [toNat_wordOfBytes, firstByte, secondByte, BitVec.extractLsb'_toNat, BitVec.extractLsb'_toNat,
    Nat.shiftRight_eq_div_pow]
  omega

/-! ### A mask keeps the fixed bits of a format (30_encoding.md R64) -/

theorem join_and {w v : Nat} (a c : BitVec w) (b d : BitVec v) : (a ++ b) &&& (c ++ d) = (a &&& c) ++ (b &&& d) := by
  apply BitVec.eq_of_getLsbD_eq
  intro i _
  simp only [BitVec.getLsbD_and, BitVec.getLsbD_append]
  split <;> rfl

theorem and_ones4 (a : BitVec 4) : a &&& 0xF#4 = a := BitVec.and_allOnes

theorem and_ones8 (a : BitVec 8) : a &&& 0xFF#8 = a := BitVec.and_allOnes

@[simp] theorem and_maskNNN (op : Word) : op &&& 0xF000#16 = fieldF op ++ 0#12 := by
  conv_lhs => rw [← formatNNN_fields op]
  refine (join_and (fieldF op) 0xF#4 (fieldNNN op) 0#12).trans ?_
  rw [and_ones4, BitVec.and_zero]

@[simp] theorem and_maskX (op : Word) : op &&& 0xF0FF#16 = fieldF op ++ 0#4 ++ fieldNN op := by
  conv_lhs => rw [← formatXNN_fields op]
  refine (join_and (fieldF op ++ fieldX op) (0xF#4 ++ 0#4) (fieldNN op) 0xFF#8).trans ?_
  rw [join_and]
  rw [and_ones4, and_ones8, BitVec.and_zero]

@[simp] theorem and_maskXY (op : Word) : op &&& 0xF00F#16 = fieldF op ++ 0#4 ++ 0#4 ++ fieldN op := by
  conv_lhs => rw [← formatXYN_fields op]
  refine (join_and (fieldF op ++ fieldX op ++ fieldY op) (0xF#4 ++ 0#4 ++ 0#4) (fieldN op) 0xF#4).trans ?_
  rw [join_and, join_and]
  rw [and_ones4, and_ones4, BitVec.and_zero, BitVec.and_zero]

/-! ### A value that a mask selects has the fields of the row's value -/

theorem fieldF_of_maskF {op v : Word} (h : op &&& 0xF000#16 = v) : fieldF op = fieldF v := by
  rw [← h, and_maskNNN, fieldF_formatNNN]

theorem fields_of_maskXY {op v : Word} (h : op &&& 0xF00F#16 = v) : fieldF op = fieldF v ∧ fieldN op = fieldN v := by
  rw [← h, and_maskXY, fieldF_formatXYN, fieldN_formatXYN]
  exact ⟨rfl, rfl⟩

theorem fields_of_maskX {op v : Word} (h : op &&& 0xF0FF#16 = v) : fieldF op = fieldF v ∧ fieldNN op = fieldNN v := by
  rw [← h, and_maskX, fieldF_formatXNN, fieldNN_formatXNN]
  exact ⟨rfl, rfl⟩

theorem eq_of_maskFixed {op v : Word} (h : op &&& 0xFFFF#16 = v) : op = v := by
  rw [← h]
  exact BitVec.and_allOnes.symm

/-! ### The branches of the decoder -/

theorem ite_eq_some {α : Type} {p : Prop} [Decidable p] {a b : Option α} {i : α} :
    (if p then a else b) = some i ↔ (p ∧ a = some i) ∨ (¬p ∧ b = some i) := by
  by_cases h : p <;> simp [h]

theorem ite_eq_none {α : Type} {p : Prop} [Decidable p] {a b : Option α} :
    (if p then a else b) = none ↔ (p ∧ a = none) ∨ (¬p ∧ b = none) := by
  by_cases h : p <;> simp [h]

end Sys2Proof
end

