-- ==== Sys2Proof/Laws/Operands.lean ====
section
/-! SUPPORT. What the operand forms, the flag order and the fault entry do. -/

namespace Sys2Proof.Machine

/-- Loading a register block changes nothing but registers. -/
theorem State.setBlock_rest (s : State) (k : Nat) (bs : List Byte) :
    s.setBlock k bs = { s with v := (s.setBlock k bs).v } := by
  induction bs generalizing s k with
  | nil => rfl
  | cons b bs ih => rw [State.setBlock, ih]; rfl

/-- Loading a register block gives register `k + j` byte `j` and leaves the others. -/
theorem State.setBlock_getV (s : State) (k : Nat) (bs : List Byte) (h : k + bs.length ≤ 16) (r : Reg) :
    (s.setBlock k bs).getV r = bytesFrom (fun a => s.getV (BitVec.ofNat 4 a)) k bs r.toNat := by
  induction bs generalizing s k with
  | nil =>
    rw [bytesFrom, dif_neg (by simp)]
    simp [State.setBlock]
  | cons b bs ih =>
    rw [List.length_cons] at h
    rw [State.setBlock, ih _ _ (by omega), ← bytesFrom_cons]
    simp only [bytesFrom]
    split
    · rfl
    · rw [BitVec.ofNat_toNat, BitVec.setWidth_eq, State.setV_getV]
      by_cases hr : r.toNat = k
      · rw [if_pos hr, if_pos (by rw [← hr]; simp)]
      · rw [if_neg hr, if_neg]
        rintro rfl
        simp at hr
        omega

theorem State.registerBlock_length (s : State) (x : Reg) : (s.registerBlock x).length = x.toNat + 1 := by
  have := x.isLt
  simp [State.registerBlock]
  omega

theorem State.registerBlock_getElem (s : State) (x : Reg) (k : Nat) (h : k < (s.registerBlock x).length) :
    (s.registerBlock x)[k] = s.getV (BitVec.ofNat 4 k) := by
  have hk : k < 16 := by
    have := x.isLt
    rw [State.registerBlock_length] at h
    omega
  simp [State.registerBlock, State.getV, Nat.mod_eq_of_lt hk]

theorem State.leastKey_eq_none {s : State} : s.leastKey = none ↔ ∀ k, s.keyAt k = false := by
  simp only [State.leastKey, List.findIdx?_eq_none_iff, State.keyAt, Vector.mem_toList_iff, Vector.mem_iff_getElem]
  constructor
  · intro h k
    simpa using h _ ⟨k.val, k.isLt, rfl⟩
  · rintro h b ⟨k, hk, rfl⟩
    simpa using h ⟨k, hk⟩

theorem State.leastKey_eq_some {s : State} {k : Nat} :
    s.leastKey = some k ↔ ∃ h : k < 16, s.keyAt ⟨k, h⟩ = true ∧ ∀ j : Fin 16, j.val < k → s.keyAt j = false := by
  simp only [State.leastKey, List.findIdx?_eq_some_iff_getElem, State.keyAt, id]
  constructor
  · rintro ⟨h, hk, hj⟩
    refine ⟨by simpa using h, by simpa using hk, fun j hlt => ?_⟩
    simpa using hj j.val hlt
  · rintro ⟨h, hk, hj⟩
    exact ⟨by simpa using h, by simpa using hk, fun j hlt => by simpa using hj ⟨j, by omega⟩ hlt⟩

/-! ### The two flag orders -/

theorem State.resultThenFlag_getV_vf (s : State) (x : Reg) (result flag : Byte) :
    (s.resultThenFlag x result flag).getV vf = flag := by
  simp [State.resultThenFlag]

theorem State.resultThenFlag_getV_of_ne (s : State) {x : Reg} (result flag : Byte) (h : x ≠ vf) :
    (s.resultThenFlag x result flag).getV x = result := by
  rw [State.resultThenFlag, State.setV_getV_of_ne _ _ (Ne.symm h), State.setV_getV_self]

theorem State.flagThenResult_getV (s : State) (x : Reg) (flag result : Byte) :
    (s.flagThenResult x flag result).getV x = result := by
  simp [State.flagThenResult]

theorem State.flagThenResult_getV_vf (s : State) {x : Reg} (flag result : Byte) (h : x ≠ vf) :
    (s.flagThenResult x flag result).getV vf = flag := by
  rw [State.flagThenResult, State.setV_getV_of_ne _ _ h, State.setV_getV_self]

/-! ### End of a rule -/

@[simp] theorem State.settle_ok (s t : State) (i : Instr) : s.settle i (.ok t) = .next t := rfl

@[simp] theorem State.settle_error (s : State) (i : Instr) (r : Raise) :
    s.settle i (.error r) = .next (s.raise r (encode i)) := rfl

/-- Taking a fault changes nothing but FAULT. -/
theorem State.raise_onlyChanges (s : State) (r : Raise) (op : Word) : OnlyChanges [.fault] s (s.raise r op) := by
  intro p hp
  cases p <;> first | rfl | exact absurd (by simp) hp

/-- Advancing changes nothing but PC. -/
theorem State.advance_onlyChanges (s : State) : OnlyChanges [.pc] s s.advance := by
  intro p hp
  cases p <;> first | rfl | exact absurd (by simp) hp

/-- Writing a register changes nothing else. -/
theorem State.setV_onlyChanges (s : State) (x : Reg) (b : Byte) : OnlyChanges [.reg x] s (s.setV x b) := by
  intro p hp
  cases p with
  | reg r =>
    refine State.setV_getV_of_ne s b fun h => hp ?_
    simp [h]
  | _ => rfl

/-- Changes compose. -/
theorem Frame.trans {w w' : Part → Prop} {s t u : State} (h : Frame w s t) (h' : Frame w' t u) :
    Frame (fun p => w p ∨ w' p) s u := by
  intro p hp
  have h₁ := h p fun hw => hp (.inl hw)
  have h₂ := h' p fun hw => hp (.inr hw)
  cases p <;> exact Eq.trans h₂ h₁

theorem Frame.mono {w w' : Part → Prop} {s t : State} (h : Frame w s t) (hw : ∀ p, w p → w' p) : Frame w' s t :=
  fun p hp => h p fun hp' => hp (hw p hp')

end Sys2Proof.Machine
end

