-- ==== Sys2Proof/Laws/Exec.lean ====
section
/-! SUPPORT. What the shared operations of the meanings do: the address forms, the stores and loads behind the range check, the draw;
and what an instruction that raises nothing can do to each field. -/

namespace Sys2Proof.Machine

/-! ### Addresses and sums over the naturals -/

theorem zextAddr_toNat (nnn : Addr12) : (zextAddr nnn).toNat = nnn.toNat := by
  have := nnn.isLt
  simp [zextAddr]
  omega

theorem State.zextV_toNat (s : State) (x : Reg) : (s.zextV x).toNat = (s.getV x).toNat := by
  have := (s.getV x).isLt
  simp [State.zextV]
  omega

theorem add8_toNat (a b : Byte) : (add8 a b).toNat = (a.toNat + b.toNat) % 256 := by simp [add8]

theorem sub8_toNat (a b : Byte) : ((sub8 a b).toNat : Int) = ((a.toNat : Int) - b.toNat) % 256 := by
  have := a.isLt
  have := b.isLt
  rw [sub8]
  split <;> simp <;> omega

theorem faultAddress_toNat (s : State) : (BitVec.ofNat 16 (max s.i.toNat 4096)).toNat = max s.i.toNat 4096 := by
  have := s.i.isLt
  simp
  omega

/-! ### Rules that may raise -/

theorem except_bind_ok {α β : Type} (a : α) (f : α → Except Raise β) : (Except.ok a >>= f) = f a := rfl

theorem except_bind_error {α β : Type} (r : Raise) (f : α → Except Raise β) :
    ((Except.error r : Except Raise α) >>= f) = .error r := rfl

theorem except_pure {α : Type} (a : α) : (pure a : Except Raise α) = .ok a := rfl

/-- A store of `n` bytes from I whose range exists completes, and the bytes stand in memory. -/
theorem State.settle_store {s : State} {i : Instr} {bs : List Byte} {n : Nat} (hn : n = bs.length) (hw : s.MemoryWf)
    (h : s.i.toNat + n ≤ 4096) :
    ∃ t, s.settle i (do s.checkRange n; let t ← s.memWriteBytes s.i.toNat bs; pure t.advance) = .next t.advance ∧
      s.MemoryIs t (bytesFrom s.byteAt s.i.toNat bs) := by
  subst hn
  obtain ⟨t, ht, hm⟩ := State.memWriteBytes_of_le h hw
  refine ⟨t, ?_, hm⟩
  rw [State.checkRange_of_le (.inr h)]
  simp only [except_bind_ok, ht, except_pure, State.settle_ok]

/-- A rule behind a range check that fails takes DATA_RANGE. -/
theorem State.settle_out_of_range {s : State} {i : Instr} {n : Nat} (f : PUnit → Except Raise State) (hn : 0 < n)
    (h : 4096 < s.i.toNat + n) :
    s.settle i (s.checkRange n >>= f) = .next (s.raise ⟨.dataRange, BitVec.ofNat 16 (max s.i.toNat 4096)⟩ (encode i)) := by
  rw [State.checkRange_of_gt hn h]
  rfl

/-- A store changes nothing but the memory bytes it writes and PC. -/
theorem State.MemoryIs.frame {s t : State} {f : Nat → Byte} (h : s.MemoryIs t f) (w : Part → Prop)
    (hw : ∀ a, ¬ w (.byte a) → f a = s.byteAt a) (hpc : w .pc) : Frame w s t.advance := by
  intro p hp
  cases p with
  | byte a => exact (h.bytes a).trans (hw a hp)
  | pc => exact absurd hpc hp
  | _ => rw [h.rest]; rfl

/-- Byte writes that complete change nothing but memory, and keep its form. -/
theorem State.memWriteBytes_ok {s t : State} {a : Nat} {bs : List Byte} (h : s.memWriteBytes a bs = .ok t) :
    t = { s with mem := t.mem } ∧ (s.MemoryWf → t.MemoryWf) := by
  induction bs generalizing s a with
  | nil =>
    cases h
    exact ⟨rfl, id⟩
  | cons b bs ih =>
    by_cases hl : a ≤ 4095
    · rw [State.memWriteBytes, State.memWrite_of_le hl, except_bind_ok] at h
      obtain ⟨hrest, hwf⟩ := ih h
      exact ⟨hrest, fun hw => hwf (State.setByte_memoryWf b (by omega) hw)⟩
    · rw [State.memWriteBytes, State.memWrite, if_pos (by omega), except_bind_error] at h
      cases h

/-- What a completed store or a raise in its place leaves. -/
theorem State.settle_store_next {s t : State} {i : Instr} {n : Nat} {bs : List Byte}
    (h : s.settle i (do s.checkRange n; let t ← s.memWriteBytes s.i.toNat bs; pure t.advance) = .next t) :
    (∃ r, t = s.raise r (encode i)) ∨
      (t = { s with mem := t.mem, pc := s.pc + 2 } ∧ (s.MemoryWf → t.MemoryWf)) := by
  cases hc : s.checkRange n with
  | error r =>
    rw [hc, except_bind_error, State.settle_error] at h
    cases h
    exact .inl ⟨r, rfl⟩
  | ok u =>
    rw [hc, except_bind_ok] at h
    cases hm : s.memWriteBytes s.i.toNat bs with
    | error r =>
      rw [hm, except_bind_error, State.settle_error] at h
      cases h
      exact .inl ⟨r, rfl⟩
    | ok u =>
      rw [hm, except_bind_ok, except_pure, State.settle_ok] at h
      cases h
      obtain ⟨hrest, hwf⟩ := State.memWriteBytes_ok hm
      refine .inr ⟨?_, hwf⟩
      rw [hrest]
      rfl

/-! ### The load and the draw -/

/-- load-registers X in range: the block from I into V0 .. Vx. -/
theorem execLoadRegisters_of_le {s : State} {x : Reg} (h : s.i.toNat + x.toNat ≤ 4095) :
    execLoadRegisters x s =
      .next (s.setBlock 0 ((List.range (x.toNat + 1)).map fun k => s.byteAt (s.i.toNat + k))).advance := by
  rw [execLoadRegisters, State.checkRange_of_le (.inr (by omega)), except_bind_ok, State.memReadBytes_of_le (by omega),
    except_bind_ok]
  rfl

/-- The registers after that block is loaded. -/
theorem State.setBlock_memory_getV {s : State} {x : Reg} (r : Reg) :
    (s.setBlock 0 ((List.range (x.toNat + 1)).map fun k => s.byteAt (s.i.toNat + k))).getV r =
      if r ≤ x then s.byteAt (s.i.toNat + r.toNat) else s.getV r := by
  have := x.isLt
  rw [State.setBlock_getV _ _ _ (by simp; omega), bytesFrom]
  by_cases hr : r ≤ x
  · have hr' : r.toNat ≤ x.toNat := hr
    rw [if_pos hr, dif_pos (by simp; omega)]
    simp
  · have hr' : ¬ r.toNat ≤ x.toNat := hr
    rw [if_neg hr, dif_neg (by simp; omega)]
    simp

/-- What draw X,Y,N leaves on the canvas: the rows from I at the wrapped start position. -/
def State.drawn (s : State) (x y : Reg) (n : BitVec 4) : Canvas :=
  Canvas.drawRows ⟨s.fb, false⟩ ((s.getV x).toNat % 64) ((s.getV y).toNat % 32)
    ((List.range n.toNat).map fun k => s.byteAt (s.i.toNat + k))

/-- draw X,Y,N in range: the canvas and its collision into FB and VF. -/
theorem execDraw_of_le {x y : Reg} {n : BitVec 4} {s : State} (h : n = 0 ∨ s.i.toNat + n.toNat - 1 ≤ 4095) :
    execDraw x y n s =
      .next (({ s with fb := (s.drawn x y n).fb } : State).setV vf (flagByte (s.drawn x y n).hit)).advance := by
  have hn : n.toNat = 0 ∨ s.i.toNat + n.toNat ≤ 4096 := by
    rcases h with rfl | h
    · exact .inl rfl
    · omega
  have hrows : s.memReadBytes s.i.toNat n.toNat = .ok ((List.range n.toNat).map fun k => s.byteAt (s.i.toNat + k)) := by
    rcases hn with hn | hn
    · rw [hn]
      rfl
    · exact State.memReadBytes_of_le hn
  rw [execDraw, State.checkRange_of_le hn, except_bind_ok, hrows, except_bind_ok]
  rfl

/-- The canvas flips exactly the pixels the sprite's 1 bits reach. -/
theorem State.drawn_flips (s : State) (x y : Reg) (n : BitVec 4) :
    Canvas.Flips ⟨s.fb, false⟩ (s.drawn x y n)
      (DrawnAt s ((s.getV x).toNat % 64) ((s.getV y).toNat % 32) n.toNat) := by
  refine (Canvas.drawRows_flips _ _ _ _).congr fun px py => ?_
  constructor
  · rintro ⟨r, c, hr, hc, hx, hy, hb⟩
    exact ⟨r, c, by simpa using hr, hc, hx, hy, by simpa using hb⟩
  · rintro ⟨r, c, hr, hc, hx, hy, hb⟩
    exact ⟨r, c, by simpa using hr, hc, hx, hy, by simpa using hb⟩

/-! ### An instruction that raises nothing -/

/-- Its memory range exists. -/
theorem accessLength_of_raises_none {i : Instr} {s : State} (h : raises s i = none) (hc : ∀ nnn, i ≠ .call nnn)
    (hr : i ≠ .ret) : accessLength i = 0 ∨ s.i.toNat + accessLength i ≤ 4096 := by
  have : ¬ (0 < accessLength i ∧ s.i.toNat + accessLength i - 1 > 4095) := by
    intro hh
    cases i <;> first
      | exact hc _ rfl
      | exact hr rfl
      | (simp only [raises] at h; rw [if_pos hh] at h; cases h)
  omega

/-- What an instruction that raises nothing and completes can do, field by field. -/
structure Completes (i : Instr) (s t : State) : Prop where
  key : t.key = s.key
  cfg : t.cfg = s.cfg
  fault : t.fault = s.fault
  dt : t.dt = s.dt ∨ ∃ x, i = .setDelay x
  st : t.st = s.st ∨ ∃ x, i = .setSound x
  index : t.i = s.i ∨ (∃ nnn, i = .setIndex nnn) ∨ (∃ x, i = .addToIndex x) ∨ ∃ x, i = .loadFontAddress x
  sp : t.sp = s.sp ∨ (i = .ret ∧ t.sp = s.sp - 1 ∧ 0 < s.sp.toNat ∧ s.sp.toNat ≤ 16) ∨
    ((∃ nnn, i = .call nnn) ∧ t.sp = s.sp + 1 ∧ s.sp.toNat < 16)
  stack : t.stack = s.stack ∨ ((∃ nnn, i = .call nnn) ∧ ∃ j : Fin 16, t.stack = s.stack.set j.val (s.pc + 2))
  fb : t.fb = s.fb ∨ i = .clearScreen ∨ ∃ x y n, i = .draw x y n
  mem : t.mem = s.mem ∨ (((∃ x, i = .storeBcd x) ∨ ∃ x, i = .storeRegisters x) ∧ (s.MemoryWf → t.MemoryWf))
  pc : t.pc = s.pc ∨ t.pc = s.pc + 2 ∨ t.pc = s.pc + 4 ∨ t.pc.toNat ≤ 0x10FE ∨ ∃ j, t.pc = s.entry j

theorem Completes.ofSkip (i : Instr) (s : State) (taken : Bool) : Completes i s (s.skipIf taken) := by
  constructor
  case pc =>
    cases taken
    · exact .inr (.inl rfl)
    · exact .inr (.inr (.inl rfl))
  all_goals first | rfl | exact .inl rfl

theorem Completes.ofStore {i : Instr} {s t : State} {n : Nat} {bs : List Byte} (hi : accessLength i = n)
    (hstores : (∃ x, i = .storeBcd x) ∨ ∃ x, i = .storeRegisters x) (hn : n = bs.length) (hr : raises s i = none)
    (h : s.settle i (do s.checkRange n; let t ← s.memWriteBytes s.i.toNat bs; pure t.advance) = .next t) :
    Completes i s t := by
  have hle := accessLength_of_raises_none hr (by rcases hstores with ⟨x, rfl⟩ | ⟨x, rfl⟩ <;> simp)
    (by rcases hstores with ⟨x, rfl⟩ | ⟨x, rfl⟩ <;> simp)
  rw [hi] at hle
  have hok : ∀ (bs : List Byte) (s' : State) (a : Nat), bs.length = 0 ∨ a + bs.length ≤ 4096 →
      ∃ u, s'.memWriteBytes a bs = .ok u := by
    intro bs
    induction bs with
    | nil => exact fun s' a _ => ⟨s', rfl⟩
    | cons b bs ih =>
      intro s' a hl
      simp only [List.length_cons] at hl
      rw [State.memWriteBytes, State.memWrite_of_le (by omega), except_bind_ok]
      exact ih _ _ (by omega)
  obtain ⟨u, hu⟩ := hok bs s s.i.toNat (by omega)
  rw [State.checkRange_of_le hle, except_bind_ok, hu, except_bind_ok, except_pure, State.settle_ok] at h
  cases h
  obtain ⟨hrest, hwf⟩ := State.memWriteBytes_ok hu
  constructor
  case mem => exact .inr ⟨hstores, hwf⟩
  case pc =>
    right; left
    rw [hrest]
    rfl
  all_goals first | (rw [hrest]; rfl) | (left; rw [hrest]; rfl)

/-- The inversion of exec for an instruction that raises nothing. -/
theorem completes_of_exec {i : Instr} {s t : State} (h : exec i s = .next t) (hr : raises s i = none) :
    Completes i s t := by
  cases i
  case storeBcd x => exact .ofStore (n := 3) rfl (.inl ⟨x, rfl⟩) rfl hr h
  case storeRegisters x => exact .ofStore rfl (.inr ⟨x, rfl⟩) (s.registerBlock_length x).symm hr h
  case loadRegisters x =>
    have hle := accessLength_of_raises_none hr (by simp) (by simp)
    simp only [accessLength] at hle
    change execLoadRegisters x s = _ at h
    rw [execLoadRegisters_of_le (by omega)] at h
    cases h
    constructor
    case pc =>
      right; left
      rw [State.setBlock_rest]
      rfl
    all_goals first | (rw [State.setBlock_rest]; rfl) | (left; rw [State.setBlock_rest]; rfl)
  case draw x y n =>
    have hle := accessLength_of_raises_none hr (by simp) (by simp)
    simp only [accessLength] at hle
    change execDraw x y n s = _ at h
    rw [execDraw_of_le (hle.imp (fun h => BitVec.eq_of_toNat_eq h) (by omega))] at h
    cases h
    constructor
    case fb => exact .inr (.inr ⟨x, y, n, rfl⟩)
    case pc => exact .inr (.inl rfl)
    all_goals first | rfl | exact .inl rfl
  case ret =>
    change execRet s = _ at h
    simp only [raises] at hr
    split at hr
    · cases hr
    rw [execRet, if_neg (by bv_omega)] at h
    split at h
    · cases h
      constructor
      case sp => exact .inr (.inl ⟨rfl, rfl, by omega, by omega⟩)
      case pc => exact .inr (.inr (.inr (.inr ⟨_, rfl⟩)))
      all_goals first | rfl | exact .inl rfl
    · cases h
  case call nnn =>
    change execCall nnn s = _ at h
    simp only [raises] at hr
    split at hr
    · cases hr
    rw [execCall, if_neg (by bv_omega)] at h
    split at h
    · next hlt =>
      cases h
      constructor
      case sp => exact .inr (.inr ⟨⟨nnn, rfl⟩, rfl, hlt⟩)
      case stack => exact .inr ⟨⟨nnn, rfl⟩, _, rfl⟩
      case pc =>
        refine .inr (.inr (.inr (.inl ?_)))
        have := nnn.isLt
        change (zextAddr nnn).toNat ≤ _
        rw [zextAddr_toNat]
        omega
      all_goals first | rfl | exact .inl rfl
    · cases h
  case waitForKey x =>
    change execWaitForKey x s = _ at h
    rw [execWaitForKey] at h
    split at h
    · cases h
      constructor
      case pc => exact .inr (.inl rfl)
      all_goals first | rfl | exact .inl rfl
    · cases h
      constructor <;> first | rfl | exact .inl rfl
  case jump nnn =>
    cases h
    constructor
    case pc =>
      refine .inr (.inr (.inr (.inl ?_)))
      have := nnn.isLt
      change (zextAddr nnn).toNat ≤ _
      rw [zextAddr_toNat]
      omega
    all_goals first | rfl | exact .inl rfl
  case jumpOffset nnn =>
    cases h
    constructor
    case pc =>
      refine .inr (.inr (.inr (.inl ?_)))
      have := nnn.isLt
      have := (s.getV v0).isLt
      change (zextAddr nnn + s.zextV v0).toNat ≤ _
      rw [BitVec.toNat_add, zextAddr_toNat, State.zextV_toNat]
      omega
    all_goals first | rfl | exact .inl rfl
  case skipIfEqual => cases h; exact .ofSkip _ _ _
  case skipIfNotEqual => cases h; exact .ofSkip _ _ _
  case skipIfRegEqual => cases h; exact .ofSkip _ _ _
  case skipIfRegNotEqual => cases h; exact .ofSkip _ _ _
  case skipIfKeyPressed => cases h; exact .ofSkip _ _ _
  case skipIfKeyNotPressed => cases h; exact .ofSkip _ _ _
  case setDelay =>
    cases h
    constructor
    case dt => exact .inr ⟨_, rfl⟩
    case pc => exact .inr (.inl rfl)
    all_goals first | rfl | exact .inl rfl
  case setSound =>
    cases h
    constructor
    case st => exact .inr ⟨_, rfl⟩
    case pc => exact .inr (.inl rfl)
    all_goals first | rfl | exact .inl rfl
  case setIndex =>
    cases h
    constructor
    case index => exact .inr (.inl ⟨_, rfl⟩)
    case pc => exact .inr (.inl rfl)
    all_goals first | rfl | exact .inl rfl
  case addToIndex =>
    cases h
    constructor
    case index => exact .inr (.inr (.inl ⟨_, rfl⟩))
    case pc => exact .inr (.inl rfl)
    all_goals first | rfl | exact .inl rfl
  case loadFontAddress =>
    cases h
    constructor
    case index => exact .inr (.inr (.inr ⟨_, rfl⟩))
    case pc => exact .inr (.inl rfl)
    all_goals first | rfl | exact .inl rfl
  case clearScreen =>
    cases h
    constructor
    case fb => exact .inr (.inl rfl)
    case pc => exact .inr (.inl rfl)
    all_goals first | rfl | exact .inl rfl
  all_goals
    cases h
    constructor
    case pc => exact .inr (.inl rfl)
    all_goals first | rfl | exact .inl rfl

end Sys2Proof.Machine
end

