-- ==== Sys2Proof/Laws/PerInstr.lean ====
section
/-! SUPPORT. Statements about every instruction as syntax, one lemma per constructor. -/

/-- The encoding of an instruction has the fixed bits of its own row of the opcode map (30_encoding.md R65). -/
def Sys2Proof.Laws.EncodesRow.Statement (i : Sys2Proof.Instr) : Prop := i.row.selects (Sys2Proof.encode i) = true

namespace Sys2Proof.Laws.EncodesRow

theorem clearScreen : Statement .clearScreen := by
  simp [Statement, OpcodeRow.selects, Instr.row, encode]

theorem ret : Statement .ret := by
  simp [Statement, OpcodeRow.selects, Instr.row, encode]

theorem jump (nnn : Addr12) : Statement (.jump nnn) := by
  simp [Statement, OpcodeRow.selects, Instr.row, encode]

theorem call (nnn : Addr12) : Statement (.call nnn) := by
  simp [Statement, OpcodeRow.selects, Instr.row, encode]

theorem skipIfEqual (x : Reg) (nn : Byte) : Statement (.skipIfEqual x nn) := by
  simp [Statement, OpcodeRow.selects, Instr.row, encode]

theorem skipIfNotEqual (x : Reg) (nn : Byte) : Statement (.skipIfNotEqual x nn) := by
  simp [Statement, OpcodeRow.selects, Instr.row, encode]

theorem skipIfRegEqual (x y : Reg) : Statement (.skipIfRegEqual x y) := by
  simp [Statement, OpcodeRow.selects, Instr.row, encode]

theorem setImm (x : Reg) (nn : Byte) : Statement (.setImm x nn) := by
  simp [Statement, OpcodeRow.selects, Instr.row, encode]

theorem addImm (x : Reg) (nn : Byte) : Statement (.addImm x nn) := by
  simp [Statement, OpcodeRow.selects, Instr.row, encode]

theorem setReg (x y : Reg) : Statement (.setReg x y) := by
  simp [Statement, OpcodeRow.selects, Instr.row, encode]

theorem orReg (x y : Reg) : Statement (.orReg x y) := by
  simp [Statement, OpcodeRow.selects, Instr.row, encode]

theorem andReg (x y : Reg) : Statement (.andReg x y) := by
  simp [Statement, OpcodeRow.selects, Instr.row, encode]

theorem xorReg (x y : Reg) : Statement (.xorReg x y) := by
  simp [Statement, OpcodeRow.selects, Instr.row, encode]

theorem addReg (x y : Reg) : Statement (.addReg x y) := by
  simp [Statement, OpcodeRow.selects, Instr.row, encode]

theorem subReg (x y : Reg) : Statement (.subReg x y) := by
  simp [Statement, OpcodeRow.selects, Instr.row, encode]

theorem shiftRight (x y : Reg) : Statement (.shiftRight x y) := by
  simp [Statement, OpcodeRow.selects, Instr.row, encode]

theorem subnReg (x y : Reg) : Statement (.subnReg x y) := by
  simp [Statement, OpcodeRow.selects, Instr.row, encode]

theorem shiftLeft (x y : Reg) : Statement (.shiftLeft x y) := by
  simp [Statement, OpcodeRow.selects, Instr.row, encode]

theorem skipIfRegNotEqual (x y : Reg) : Statement (.skipIfRegNotEqual x y) := by
  simp [Statement, OpcodeRow.selects, Instr.row, encode]

theorem setIndex (nnn : Addr12) : Statement (.setIndex nnn) := by
  simp [Statement, OpcodeRow.selects, Instr.row, encode]

theorem jumpOffset (nnn : Addr12) : Statement (.jumpOffset nnn) := by
  simp [Statement, OpcodeRow.selects, Instr.row, encode]

theorem random (x : Reg) (nn : Byte) : Statement (.random x nn) := by
  simp [Statement, OpcodeRow.selects, Instr.row, encode]

theorem draw (x y : Reg) (n : BitVec 4) : Statement (.draw x y n) := by
  simp [Statement, OpcodeRow.selects, Instr.row, encode]

theorem skipIfKeyPressed (x : Reg) : Statement (.skipIfKeyPressed x) := by
  simp [Statement, OpcodeRow.selects, Instr.row, encode]

theorem skipIfKeyNotPressed (x : Reg) : Statement (.skipIfKeyNotPressed x) := by
  simp [Statement, OpcodeRow.selects, Instr.row, encode]

theorem getDelay (x : Reg) : Statement (.getDelay x) := by
  simp [Statement, OpcodeRow.selects, Instr.row, encode]

theorem waitForKey (x : Reg) : Statement (.waitForKey x) := by
  simp [Statement, OpcodeRow.selects, Instr.row, encode]

theorem setDelay (x : Reg) : Statement (.setDelay x) := by
  simp [Statement, OpcodeRow.selects, Instr.row, encode]

theorem setSound (x : Reg) : Statement (.setSound x) := by
  simp [Statement, OpcodeRow.selects, Instr.row, encode]

theorem addToIndex (x : Reg) : Statement (.addToIndex x) := by
  simp [Statement, OpcodeRow.selects, Instr.row, encode]

theorem loadFontAddress (x : Reg) : Statement (.loadFontAddress x) := by
  simp [Statement, OpcodeRow.selects, Instr.row, encode]

theorem storeBcd (x : Reg) : Statement (.storeBcd x) := by
  simp [Statement, OpcodeRow.selects, Instr.row, encode]

theorem storeRegisters (x : Reg) : Statement (.storeRegisters x) := by
  simp [Statement, OpcodeRow.selects, Instr.row, encode]

theorem loadRegisters (x : Reg) : Statement (.loadRegisters x) := by
  simp [Statement, OpcodeRow.selects, Instr.row, encode]

end Sys2Proof.Laws.EncodesRow
end

