-- ==== Sys2Proof/Laws/Step.lean ====
section
/-! SUPPORT. The inversion of the step: everything a step that answers a next state can have done. -/

namespace Sys2Proof.Machine

/-- A step that answers a next state was halted and changed nothing, took a fetch fault, passed an unknown instruction, or
executed a known one. -/
theorem step_cases {s t : State} (h : step s = .next t) :
    (s.fault.cause ≠ .none ∧ t = s) ∨
    (s.fault.cause = .none ∧ 0xFFE < s.pc.toNat ∧
      t = s.raise ⟨.fetchRange, if 4095 < s.pc.toNat then s.pc else 0x1000⟩ 0) ∨
    (s.Ready ∧ decodeWord s.opAtPc = none ∧ t = s.advance) ∨
    (∃ i, s.Executes i ∧ exec i s = .next t) := by
  by_cases hc : s.fault.cause = .none
  · rw [step, if_neg (by simp [hc])] at h
    by_cases hp : s.pc.toNat ≤ 0xFFE
    · rw [State.fetch_of_le hp] at h
      cases hd : decodeWord s.opAtPc with
      | none =>
        simp only [hd] at h
        cases h
        exact .inr (.inr (.inl ⟨⟨hc, hp⟩, rfl, rfl⟩))
      | some i =>
        simp only [hd] at h
        exact .inr (.inr (.inr ⟨i, ⟨⟨hc, hp⟩, hd⟩, h⟩))
    · rw [State.fetch_of_gt (by omega)] at h
      cases h
      exact .inr (.inl ⟨hc, by omega, rfl⟩)
  · rw [step, if_pos hc] at h
    cases h
    exact .inl ⟨hc, rfl⟩

end Sys2Proof.Machine
end

