-- ==== Sys2Proof/Tests/Slice0.lean ====
section
/-! SUPPORT. The model's own tests: words written out from 30_encoding.md, the vectors of 95_test_vectors.md, and, for every
statement with hypotheses, a state and operands that meet them. Every expected value is the spec's, named by its vector. -/

namespace Sys2Proof.Tests

open Sys2Proof.Machine

/-! ### Well-formedness: one ill-formed value for each check (V30-3 to V30-5, V30-11, V30-16, V30-18, V30-24, V30-26) -/

theorem test_wellFormed_refuses_family0 : [0x0000, 0x00E1, 0x01E0].all (fun w => !WellFormedWord w) = true := by decide

theorem test_wellFormed_refuses_family5 : WellFormedWord 0x5AB1 = false := by decide

theorem test_wellFormed_refuses_family8 :
    [0x8128, 0x8129, 0x812A, 0x812B, 0x812C, 0x812D, 0x812F].all (fun w => !WellFormedWord w) = true := by decide

theorem test_wellFormed_refuses_family9 : WellFormedWord 0x9ABF = false := by decide

theorem test_wellFormed_refuses_familyE : [0xE59F, 0xE500, 0xE5A0].all (fun w => !WellFormedWord w) = true := by decide

theorem test_wellFormed_refuses_familyF :
    [0xF500, 0xF575, 0xF585, 0xF5FF, 0xF51F].all (fun w => !WellFormedWord w) = true := by decide

theorem test_wellFormed_accepts_every_row : opcodeMap.all (fun r => WellFormedWord r.value) = true := by decide

/-! ### Decoding: a word written out for every constructor (V30-1, V30-2, V30-6 to V30-25) -/

theorem test_decode_family0 : decodeWord 0x00E0 = some .clearScreen ∧ decodeWord 0x00EE = some .ret := by decide

theorem test_decode_jumps :
    decodeWord 0x1234 = some (.jump 0x234) ∧ decodeWord 0x2FFE = some (.call 0xFFE) ∧
    decodeWord 0xB123 = some (.jumpOffset 0x123) := by decide

theorem test_decode_skips :
    decodeWord 0x3A7F = some (.skipIfEqual 0xA 0x7F) ∧ decodeWord 0x4001 = some (.skipIfNotEqual 0 0x01) ∧
    decodeWord 0x5AB0 = some (.skipIfRegEqual 0xA 0xB) ∧ decodeWord 0x9AB0 = some (.skipIfRegNotEqual 0xA 0xB) := by decide

theorem test_decode_immediates :
    decodeWord 0x6005 = some (.setImm 0 0x05) ∧ decodeWord 0x7003 = some (.addImm 0 0x03) ∧
    decodeWord 0xA123 = some (.setIndex 0x123) ∧ decodeWord 0xC5F0 = some (.random 5 0xF0) := by decide

theorem test_decode_family8_logic :
    decodeWord 0x8120 = some (.setReg 1 2) ∧ decodeWord 0x8121 = some (.orReg 1 2) ∧
    decodeWord 0x8122 = some (.andReg 1 2) ∧ decodeWord 0x8123 = some (.xorReg 1 2) := by decide

theorem test_decode_family8_flags :
    decodeWord 0x8124 = some (.addReg 1 2) ∧ decodeWord 0x8125 = some (.subReg 1 2) ∧
    decodeWord 0x8126 = some (.shiftRight 1 2) ∧ decodeWord 0x8127 = some (.subnReg 1 2) ∧
    decodeWord 0x812E = some (.shiftLeft 1 2) := by decide

theorem test_decode_draw_and_keys :
    decodeWord 0xD015 = some (.draw 0 1 5) ∧ decodeWord 0xE59E = some (.skipIfKeyPressed 5) ∧
    decodeWord 0xE5A1 = some (.skipIfKeyNotPressed 5) := by decide

theorem test_decode_familyF :
    decodeWord 0xF507 = some (.getDelay 5) ∧ decodeWord 0xF50A = some (.waitForKey 5) ∧
    decodeWord 0xF515 = some (.setDelay 5) ∧ decodeWord 0xF518 = some (.setSound 5) ∧
    decodeWord 0xF51E = some (.addToIndex 5) ∧ decodeWord 0xF529 = some (.loadFontAddress 5) ∧
    decodeWord 0xF533 = some (.storeBcd 5) ∧ decodeWord 0xF555 = some (.storeRegisters 5) ∧
    decodeWord 0xF565 = some (.loadRegisters 5) := by decide

/-- The bytes of a word in memory, first byte high (20_memory.md R43); an unknown value is refused by name. -/
theorem test_decode_bytes :
    decode [0x12, 0x34, 0x56] = .ok (.jump 0x234, [0x56]) ∧ decode [0x12] = .error .truncated ∧
    decode [0x5A, 0xB1] = .error (.unknownInstruction 0x5AB1) ∧ encodeBytes (.jump 0x234) = [0x12, 0x34] := by decide

theorem test_decodeTableWord :
    decodeTableWord 16 0xD015 = some (.draw 0 1 5) ∧ decodeTableWord 16 0x00E0 = some .clearScreen ∧
    decodeTableWord 16 0x5AB1 = none := by decide

/-! ### Building a state and looking at a result -/

/-- The reset state with registers set. -/
def regs (rs : List (Reg × Byte)) : State := rs.foldl (fun s r => s.setV r.1 r.2) State.reset

/-- The state with bytes of memory set. -/
def mem (s : State) (a : Nat) (bs : List Byte) : State := s.setBytes a bs

/-- One step over the word stored at PC. -/
def run (w : Nat) (s : State) : Host.Outcome State Fault Refusal := step (s.withFetchWord 16 w)

/-- What an observer sees of the next state, if there is one. -/
def seen {α : Type} (o : Host.Outcome State Fault Refusal) (f : State → α) : Option α :=
  match o with
  | .next t => some (f t)
  | _ => none

/-- A fault record as the spec writes it: (code, pc, op, addr). -/
def record (s : State) : BitVec 3 × Word × Word × Word := (s.fault.cause.code, s.fault.pc, s.fault.op, s.fault.addr)

/-- The pixels of row `y` in some columns. -/
def pixels (s : State) (y : Fin 32) (xs : List (Fin 64)) : List Bool := xs.map fun x => s.fbRead x y

/-- The state with one more pixel on. -/
def lit (s : State) (x : Fin 64) (y : Fin 32) : State := { s with fb := s.fb.flip x y }

/-! ### The cycle (V40) -/

theorem test_step_first_byte_high : seen (run 0x1234 State.reset) (·.pc) = some 0x234 := by decide

theorem test_step_unknown :
    seen (step State.reset) (fun t => (t.pc, t.i, t.sp, record t)) = some (0x202, 0, 0, (0, 0, 0, 0)) ∧
    State.reset.report = some (.unknown 0) := by decide

theorem test_step_last_word :
    seen (run 0x6007 { State.reset with pc := 0xFFE }) (fun t => (t.getV 0, t.pc)) = some (7, 0x1000) := by decide

theorem test_step_fetch_range :
    seen (step { State.reset with pc := 0xFFF }) (fun t => (record t, t.pc)) = some ((1, 0xFFF, 0, 0x1000), 0xFFF) ∧
    seen (step { State.reset with pc := 0x10FE }) record = some (1, 0x10FE, 0, 0x10FE) := by decide

theorem test_step_odd_pc :
    seen (run 0x6A55 { State.reset with pc := 0x201 }) (fun t => (t.getV 0xA, t.pc)) = some (0x55, 0x203) := by decide

/-! ### Control flow (V41) -/

theorem test_jump : seen (run 0x1ABC State.reset) (·.pc) = some 0xABC := by decide

theorem test_call : seen (run 0x2206 State.reset) (fun t => (t.entry 0, t.sp, t.pc)) = some (0x202, 1, 0x206) := by decide

/-- A state with `n` stack entries in use, the top one `top`. -/
def called (n : Byte) (top : Word) : State :=
  { State.reset with sp := n, stack := State.reset.stack.set! (n.toNat - 1) top }

theorem test_call_overflow :
    seen (run 0x2400 { called 16 0x202 with pc := 0x300 }) (fun t => (record t, t.sp, t.pc)) =
      some ((3, 0x300, 0x2400, 0), 16, 0x300) := by decide

theorem test_ret :
    seen (run 0x00EE { called 1 0x202 with pc := 0x208 }) (fun t => (t.sp, t.pc, t.entry 0)) =
      some (0, 0x202, 0x202) := by decide

theorem test_ret_underflow :
    seen (run 0x00EE State.reset) (fun t => (record t, t.sp, t.pc)) = some ((4, 0x200, 0x00EE, 0), 0, 0x200) := by decide

theorem test_skipIfEqual :
    seen (run 0x332A (regs [(3, 0x2A)])) (·.pc) = some 0x204 ∧
    seen (run 0x332A (regs [(3, 0x2B)])) (·.pc) = some 0x202 := by decide

theorem test_skipIfNotEqual :
    seen (run 0x432A (regs [(3, 0x2A)])) (·.pc) = some 0x202 ∧
    seen (run 0x4300 (regs [(3, 0x2A)])) (·.pc) = some 0x204 := by decide

theorem test_skipIfRegEqual :
    seen (run 0x5120 (regs [(1, 7), (2, 7)])) (·.pc) = some 0x204 ∧
    seen (run 0x5120 (regs [(1, 7), (2, 8)])) (·.pc) = some 0x202 := by decide

theorem test_skipIfRegNotEqual :
    seen (run 0x9120 (regs [(1, 7), (2, 8)])) (·.pc) = some 0x204 ∧
    seen (run 0x9330 State.reset) (·.pc) = some 0x202 := by decide

theorem test_jumpOffset :
    seen (run 0xBFFF (regs [(0, 0xFF)])) (·.pc) = some 0x10FE ∧
    seen (run 0xB300 (regs [(3, 0x55)])) (·.pc) = some 0x300 := by decide

/-! ### Arithmetic and logic (V42) -/

/-- Register `x` and VF. -/
def xAndFlag (x : Reg) (s : State) : Byte × Byte := (s.getV x, s.getV vf)

theorem test_setImm : seen (run 0x6AFF State.reset) (xAndFlag 0xA) = some (0xFF, 0) := by decide

theorem test_addImm_wraps : seen (run 0x7202 (regs [(2, 0xFF)])) (xAndFlag 2) = some (0x01, 0) := by decide

theorem test_setReg : seen (run 0x8A10 (regs [(1, 0x33)])) (xAndFlag 0xA) = some (0x33, 0) := by decide

theorem test_orReg :
    seen (run 0x8121 (regs [(1, 0xF0), (2, 0x0F), (0xF, 1)])) (xAndFlag 1) = some (0xFF, 1) := by decide

theorem test_andReg : seen (run 0x8122 (regs [(1, 0xF0), (2, 0x3C)])) (xAndFlag 1) = some (0x30, 0) := by decide

theorem test_xorReg : seen (run 0x8123 (regs [(1, 0xF0), (2, 0x3C)])) (xAndFlag 1) = some (0xCC, 0) := by decide

theorem test_addReg :
    seen (run 0x8014 (regs [(0, 0xFF), (1, 0x01)])) (xAndFlag 0) = some (0x00, 1) ∧
    seen (run 0x8014 (regs [(0, 0xFF), (0xF, 1)])) (xAndFlag 0) = some (0xFF, 0) := by decide

theorem test_addReg_flag_remains :
    seen (run 0x8F14 (regs [(0xF, 0xFF)])) (xAndFlag 1) = some (0, 0) ∧
    seen (run 0x81F4 (regs [(1, 9), (0xF, 1)])) (xAndFlag 1) = some (0x0A, 0) := by decide

theorem test_subReg :
    seen (run 0x8125 (regs [(1, 3), (2, 5)])) (xAndFlag 1) = some (0xFE, 0) ∧
    seen (run 0x8125 (regs [(1, 7), (2, 7), (0xF, 1)])) (xAndFlag 1) = some (0, 0) := by decide

theorem test_subReg_difference_remains :
    seen (run 0x8125 (regs [(1, 5), (2, 3)])) (xAndFlag 1) = some (2, 1) ∧
    seen (run 0x8F15 (regs [(0xF, 5), (1, 3)])) (xAndFlag 1) = some (3, 2) := by decide

theorem test_subnReg :
    seen (run 0x8127 (regs [(1, 5), (2, 3)])) (xAndFlag 1) = some (0xFE, 0) ∧
    seen (run 0x8127 (regs [(1, 7), (2, 7)])) (xAndFlag 1) = some (0, 1) := by decide

theorem test_subnReg_difference_remains :
    seen (run 0x8127 (regs [(1, 3), (2, 5)])) (xAndFlag 1) = some (2, 1) ∧
    seen (run 0x8F17 (regs [(0xF, 3), (1, 5)])) (xAndFlag 1) = some (5, 2) := by decide

theorem test_shiftRight :
    seen (run 0x84E6 (regs [(4, 5), (0xE, 0xFF)])) (fun t => (xAndFlag 4 t, t.getV 0xE)) = some ((2, 1), 0xFF) ∧
    seen (run 0x8F06 (regs [(0xF, 5)])) (·.getV vf) = some 2 := by decide

theorem test_shiftLeft :
    seen (run 0x840E (regs [(4, 0x81)])) (xAndFlag 4) = some (2, 1) ∧
    seen (run 0x840E (regs [(4, 0x40), (0xF, 1)])) (xAndFlag 4) = some (0x80, 0) ∧
    seen (run 0x8F0E (regs [(0xF, 0x81)])) (·.getV vf) = some 2 := by decide

/-- The three vectors with a given draw, and the last of them for every draw. -/
theorem test_random :
    (randomWith 0xA7 3 0x0F State.reset).getV 3 = 0x07 ∧ (randomWith 0x5C 3 0xFF State.reset).getV 3 = 0x5C ∧
    (randomWith 0x5C 3 0xFF State.reset).pc = 0x202 := by decide

theorem test_random_masked : seen (run 0xC300 (regs [(3, 0x55)])) (·.getV 3) = some 0 := by
  exact congrArg some (BitVec.and_zero (x := Config.rnd 0))

/-! ### Index register and memory (V43) -/

theorem test_setIndex : seen (run 0xA2F0 State.reset) (·.i) = some 0x2F0 := by decide

theorem test_addToIndex :
    seen (run 0xF21E { regs [(2, 1)] with i := 0xFFF }) (fun t => (t.i, t.getV vf)) = some (0x1000, 0) ∧
    seen (run 0xF21E { regs [(2, 1)] with i := 0xFFFF }) (·.i) = some 0 := by decide

theorem test_loadFontAddress :
    seen (run 0xF029 (regs [(0, 0x0F)])) (·.i) = some 0x9B ∧
    seen (run 0xF029 (regs [(0, 0x1A)])) (·.i) = some 0x82 := by decide

/-- The bytes at addresses `a` to `a + n - 1`. -/
def bytesAt (a n : Nat) (s : State) : List Byte := (List.range n).map fun k => s.byteAt (a + k)

theorem test_storeBcd :
    seen (run 0xF533 { regs [(5, 0x9C)] with i := 0x300 }) (bytesAt 0x300 4) = some [1, 5, 6, 0] ∧
    seen (run 0xF533 { regs [(5, 0x7B)] with i := 0xFFD }) (bytesAt 0xFFD 3) = some [1, 2, 3] := by decide

theorem test_storeBcd_range :
    seen (run 0xF533 { regs [(5, 0x7B)] with i := 0xFFE }) (fun t => (record t, bytesAt 0xFFE 2 t)) =
      some ((2, 0x200, 0xF533, 0x1000), [0, 0]) := by decide

theorem test_storeRegisters :
    seen (run 0xF255 { regs [(0, 0x11), (1, 0x22), (2, 0x33), (3, 0x44)] with i := 0x400 })
      (fun t => (bytesAt 0x400 4 t, t.i)) = some ([0x11, 0x22, 0x33, 0], 0x400) ∧
    seen (run 0xF055 { regs [(0, 0x7E)] with i := 0xFFF }) (bytesAt 0xFFF 1) = some [0x7E] := by decide

theorem test_storeRegisters_range :
    seen (run 0xF155 { regs [(0, 0xAA), (1, 0xBB)] with i := 0xFFF, pc := 0x202 })
      (fun t => (record t, bytesAt 0xFFF 1 t)) = some ((2, 0x202, 0xF155, 0x1000), [0]) ∧
    seen (run 0xF055 { State.reset with i := 0x1234 }) (·.fault.addr) = some 0x1234 := by decide

theorem test_loadRegisters :
    seen (run 0xF265 { mem (regs [(3, 0x99)]) 0x400 [0x11, 0x22, 0x33, 0x44] with i := 0x400 })
      (fun t => (t.getV 0, t.getV 1, t.getV 2, t.getV 3, t.i)) = some (0x11, 0x22, 0x33, 0x99, 0x400) ∧
    seen (run 0xF465 { State.reset with i := 0x50 })
      (fun t => (t.getV 0, t.getV 1, t.getV 2, t.getV 3, t.getV 4)) = some (0xF0, 0x90, 0x90, 0x90, 0xF0) := by decide

theorem test_loadRegisters_range :
    seen (run 0xFF65 { State.reset with i := 0xFF1 }) (fun t => (t.v, t.fault.cause)) =
      some (State.reset.v, .dataRange) ∧
    seen (run 0xFF65 { mem State.reset 0xFF0 [0x77] with i := 0xFF0 }) (fun t => (t.getV 0, t.fault.cause)) =
      some (0x77, .none) := by decide

/-! ### Display (V44) -/

theorem test_clearScreen :
    seen (run 0x00E0 (lit (regs [(0xF, 1)]) 10 3)) (fun t => (pixels t 3 [9, 10], t.getV vf)) =
      some ([false, false], 1) := by decide

/-- V44-3 and V44-4: a sprite clipped at the lower right corner. -/
def corner : State := { mem (regs [(0, 62), (1, 31)]) 0x300 [0xF0, 0x90] with i := 0x300 }

theorem test_draw_clips_and_collides :
    seen (run 0xD012 corner) (fun t => (pixels t 31 [0, 1, 61, 62, 63], pixels t 0 [62], t.getV vf)) =
      some ([false, false, false, true, true], [false], 0) ∧
    seen (run 0xD012 (lit corner 62 31)) (fun t => (pixels t 31 [62, 63], t.getV vf)) =
      some ([false, true], 1) := by decide

/-- V44-5, V44-7 to V44-10: the position wraps, column c is bit 7 - c, the range of all N rows is checked. -/
theorem test_draw_position_bits_and_range :
    seen (run 0xD011 { mem (regs [(0, 70), (1, 33)]) 0x300 [0x80] with i := 0x300 }) (fun t => pixels t 1 [5, 6, 7]) =
      some [false, true, false] ∧
    seen (run 0xD011 { mem State.reset 0x300 [0x01] with i := 0x300 }) (fun t => pixels t 0 [6, 7]) =
      some [false, true] ∧
    seen (run 0xD013 { State.reset with i := 0xFFE }) record = some (2, 0x200, 0xD013, 0x1000) ∧
    seen (run 0xD010 { regs [(0xF, 1)] with i := 0xFFFF }) (fun t => (t.fault.cause, t.getV vf)) = some (.none, 0) ∧
    seen (run 0xD012 { regs [(1, 31)] with i := 0xFFE }) (fun t => t.fault.cause) = some .none := by decide

/-! ### Keypad and timers (V45) -/

/-- The state with some keys pressed. -/
def press (s : State) (ks : List (Fin 16)) : State := ks.foldl (fun s k => s.keyWrite k true) s

theorem test_skipIfKeyPressed :
    seen (run 0xE29E (press (regs [(2, 0x17)]) [7])) (·.pc) = some 0x204 ∧
    seen (run 0xE29E (regs [(2, 0x07)])) (·.pc) = some 0x202 := by decide

theorem test_skipIfKeyNotPressed :
    seen (run 0xE2A1 (press (regs [(2, 0x07)]) [7])) (·.pc) = some 0x202 ∧
    seen (run 0xE2A1 (regs [(2, 0x07)])) (·.pc) = some 0x204 := by decide

theorem test_getDelay :
    seen (run 0xF407 { State.reset with dt := 0x3C }) (fun t => (t.getV 4, t.dt)) = some (0x3C, 0x3C) := by decide

theorem test_setDelay : seen (run 0xF415 (regs [(4, 0x3C)])) (fun t => (t.dt, t.st)) = some (0x3C, 0) := by decide

theorem test_setSound : seen (run 0xF418 (regs [(4, 0x0A)])) (fun t => (t.dt, t.st)) = some (0, 0x0A) := by decide

theorem test_waitForKey :
    seen (run 0xF60A (press State.reset [0xB, 3])) (fun t => (t.getV 6, t.pc)) = some (3, 0x202) ∧
    seen (run 0xF60A (press (regs [(6, 0x55)]) [0])) (fun t => (t.getV 6, t.pc)) = some (0, 0x202) := by decide

theorem test_waitForKey_waits :
    seen (run 0xF60A (regs [(6, 0x55)])) (fun t => (t.getV 6, t.pc)) = some (0x55, 0x200) ∧
    (State.reset.withFetchWord 16 0xF60A).report = some .waiting ∧
    (State.reset.withFetchWord 16 0xF60A).awaitingKey = true := by decide

theorem test_timerTick :
    let s := { State.reset with dt := 1, st := 0 }
    (s.timerTick.dt, s.timerTick.st, s.timerTick.timerTick.dt) = (0, 0, 0) := by decide

/-! ### The outside agents (V49) -/

theorem test_loadProgram :
    bytesAt 0x200 4 ((mem State.reset 0x200 [0xAA, 0xBB, 0xCC, 0xDD]).loadProgram [0x11, 0x22]).2 =
      [0x11, 0x22, 0xCC, 0xDD] ∧ (State.reset.loadProgram []).1 = .loaded := by decide

theorem test_reset_font :
    bytesAt 0x50 6 State.reset = [0xF0, 0x90, 0x90, 0x90, 0xF0, 0x20] ∧
    bytesAt 0x9B 6 State.reset = [0xF0, 0x80, 0xF0, 0x80, 0x80, 0] ∧ State.reset.byteAt 0x4F = 0 := by decide

/-- V49-7: a halted machine still takes ticks and key writes; its step reports HALTED. -/
theorem test_halted :
    let s := { State.reset with fault := ⟨.dataRange, 0x200, 0xF155, 0x1000⟩, dt := 2 }
    s.timerTick.dt = 1 ∧ (s.keyWrite 3 true).keyAt 3 = true ∧ s.report = some .halted := by decide

/-- V49-5: reset clears a fault. -/
theorem test_reset_clears :
    let s := { regs [(3, 9)] with fault := ⟨.dataRange, 0x200, 0xF155, 0x1000⟩, pc := 0x300, dt := 2 }
    (record s.resetOp, s.resetOp.getV 3, s.resetOp.pc, s.resetOp.dt) = ((0, 0, 0, 0), 0, 0x200, 0) := by decide

/-! ### Every row of the table runs as the first instruction after reset -/

/-- One word for each row. -/
def firstWords : List Nat :=
  [0x00E0, 0x1234, 0x2FFE, 0x3A7F, 0x4001, 0x5AB0, 0x6005, 0x7003, 0x8120, 0x8121, 0x8122, 0x8123, 0x8124, 0x8125, 0x8126,
   0x8127, 0x812E, 0x9AB0, 0xA123, 0xB123, 0xC5F0, 0xD015, 0xE59E, 0xE5A1, 0xF507, 0xF50A, 0xF515, 0xF518, 0xF51E, 0xF529,
   0xF533, 0xF555, 0xF565]

theorem test_every_row_runs :
    firstWords.all (fun w => seen (run w State.reset) (fun t => t.fault.cause) == some .none) = true ∧
    seen (run 0x00EE State.reset) (fun t => t.fault.cause) = some .stackUnderflow := by decide

/-! ### The hypotheses of the statements are met: a state and operands for each, at the boundary where there is one -/

/-- A state that no reset gives: registers, two memory bytes, one stack entry in use, a key, both timers. -/
def busy : State :=
  { mem (press (regs [(0, 0x12), (1, 0x34), (2, 0x02), (0xF, 0x01)]) [5]) 0x300 [0xF0, 0x90] with
    i := 0x300, sp := 1, stack := State.reset.stack.set 0 0x208, dt := 3, st := 4, pc := 0x210 }

/-- A machine halted by the fault of V43-14. -/
def halted : State := { busy with i := 0xFFF, fault := ⟨.dataRange, 0x210, 0xF155, 0x1000⟩ }

theorem test_busy_inv : busy.Inv := ⟨by decide, by decide, by decide, by decide, rfl⟩

theorem test_halted_inv : halted.Inv :=
  ⟨by decide, by decide, by decide, by decide, rfl, by decide, .storeRegisters 1, by decide, by decide⟩

theorem test_meets_StepRunsDecodedInstruction :
    let s := busy.withFetchWord 16 0xD125
    s.Ready ∧ WellFormed (.draw 1 2 5) = true ∧
      decode (s.byteAt s.pc.toNat :: s.byteAt (s.pc.toNat + 1) :: [0xAA]) = .ok (.draw 1 2 5, [0xAA]) :=
  ⟨⟨rfl, by decide⟩, by decide, by decide⟩

theorem test_meets_UnknownInstructionOnlyAdvances : busy.Ready ∧ decodeWord busy.opAtPc = none :=
  ⟨⟨rfl, by decide⟩, by decide⟩

theorem test_meets_HaltedStepChangesNothing : halted.fault.cause ≠ .none := by decide

theorem test_meets_FetchBeyondMemoryFaults :
    (let s := { busy with pc := 0xFFF }; s.fault.cause = .none ∧ 0xFFE < s.pc.toNat) ∧
    (let s := { busy with pc := 0x1000 }; s.fault.cause = .none ∧ 0xFFE < s.pc.toNat) := by decide

theorem test_meets_ResetLeavesTheResetValues :
    let c := halted.cfg
    (0x4F < c.fontBase.val ∨ c.fontBase.val + 80 ≤ 0x4F) ∧ (0xA0 < c.fontBase.val ∨ c.fontBase.val + 80 ≤ 0xA0) := by
  decide

theorem test_meets_DecodeReadsBackEncode : WellFormed (.draw 0xF 0xF 0xF) = true ∧ WellFormed .clearScreen = true := by
  decide

theorem test_meets_EncodeReadsBackDecode : decodeWord 0x84E6 = some (.shiftRight 4 0xE) := by decide

theorem test_meets_DecoderAgreesWithOpcodeMap :
    let r := Instr.row (.shiftRight 0 0)
    r ∈ opcodeMap ∧ r.selects 0x84E6 = true ∧ decodeWord 0x84E6 = some (.shiftRight 4 0xE) ∧ decodeWord 0x84E8 = none := by
  decide

/-- The clauses for X ≠ 0xF of the arithmetic statements. -/
theorem test_meets_flag_clauses : (0xE : Reg) ≠ vf ∧ ¬ (0xF : Reg) ≠ vf := by decide

theorem test_meets_LoadedAddressHoldsTheGlyph :
    (∀ k : Fin 80, busy.byteAt (busy.cfg.fontBase.val + k.val) = busy.cfg.fontData[k.val]) ∧
    (∃ t, exec (.loadFontAddress 1) busy = .next t) ∧ (busy.getV 1).toNat % 16 = (4 : Fin 16).val :=
  ⟨by decide, ⟨_, rfl⟩, by decide⟩

theorem test_meets_CallPushesOrOverflows :
    (called 15 0x202).sp.toNat < 16 ∧ State.reset.sp.toNat < 16 ∧ (called 16 0x202).sp.toNat = 16 := by decide

theorem test_meets_ReturnPopsOrUnderflows :
    (called 16 0x202).sp.toNat = (15 : Fin 16).val + 1 ∧ (called 1 0x202).sp.toNat = (0 : Fin 16).val + 1 ∧
    State.reset.sp.toNat = 0 := by decide

theorem test_meets_IllegalStackPointerStops :
    16 < (called 17 0x202).sp.toNat ∧ 16 < ({ busy with sp := 255 } : State).sp.toNat := by decide

theorem test_meets_KeySkipsTestTheKey : (busy.getV 1).toNat % 16 = (4 : Fin 16).val := by decide

theorem test_meets_WaitForKeyTakesTheLeastKey :
    (busy.keyAt 5 = true ∧ ∀ j : Fin 16, j < 5 → busy.keyAt j = false) ∧ ∀ k : Fin 16, State.reset.keyAt k = false := by
  decide

theorem test_meets_StoreBcdWritesThreeDigits :
    (let s := { busy with i := 4093 }; Memory.wf s.cfg s.mem = true ∧ s.i.toNat + 2 ≤ 4095) ∧
    (let s := { busy with i := 4094 }; Memory.wf s.cfg s.mem = true ∧ s.i.toNat + 2 > 4095) := by decide

theorem test_meets_StoreRegistersWritesTheBlock :
    (let s := { busy with i := 4094 }; Memory.wf s.cfg s.mem = true ∧ s.i.toNat + (1 : Reg).toNat ≤ 4095) ∧
    (let s := { busy with i := 4095 }; Memory.wf s.cfg s.mem = true ∧ s.i.toNat + (1 : Reg).toNat > 4095) := by decide

theorem test_meets_LoadRegistersReadsTheBlock :
    ({ busy with i := 0xFF0 } : State).i.toNat + (0xF : Reg).toNat ≤ 4095 ∧
    ({ busy with i := 0xFF1 } : State).i.toNat + (0xF : Reg).toNat > 4095 := by decide

theorem test_meets_DrawXorsClippedSprite :
    (let s := { busy with i := 0xFFE }; s.i.toNat + (2 : BitVec 4).toNat - 1 ≤ 4095) ∧
    ((0 : BitVec 4) = 0 ∨ ({ busy with i := 0xFFFF } : State).i.toNat + (0 : BitVec 4).toNat - 1 ≤ 4095) := by decide

theorem test_meets_DrawTwiceRestoresTheScreen :
    ∃ t, (busy.i.toNat + (2 : BitVec 4).toNat - 1 ≤ 4095) ∧ exec (.draw 0 1 2) busy = .next t ∧
      (t.getV 0).toNat % 64 = (busy.getV 0).toNat % 64 ∧ (t.getV 1).toNat % 32 = (busy.getV 1).toNat % 32 :=
  ⟨_, by decide, rfl, by decide, by decide⟩

theorem test_meets_InstructionFaultsArePrecise :
    raises (called 16 0x202) (.call 0x400) = some ⟨.stackOverflow, 0⟩ ∧
    raises State.reset .ret = some ⟨.stackUnderflow, 0⟩ ∧
    raises { busy with i := 0xFFE } (.storeBcd 5) = some ⟨.dataRange, 0x1000⟩ ∧
    raises { busy with i := 0x1234 } (.draw 0 1 1) = some ⟨.dataRange, 0x1234⟩ := by decide

theorem test_meets_EveryInstructionKeepsToItsFootprint :
    Memory.wf busy.cfg busy.mem = true ∧ raises busy (.storeRegisters 2) = none ∧
    ∃ t, exec (.storeRegisters 2) busy = .next t := ⟨by decide, by decide, _, rfl⟩

theorem test_meets_StepKeepsInvariant :
    (busy.withFetchWord 16 0xF255).Inv ∧ (∃ t, step (busy.withFetchWord 16 0xF255) = .next t) ∧
    halted.Inv ∧ ∃ t, step halted = .next t :=
  ⟨⟨by decide, by decide, by decide, by decide, rfl⟩, ⟨_, rfl⟩, test_halted_inv, _, rfl⟩

theorem test_meets_OperationsKeepInvariant : busy.Inv ∧ halted.Inv := ⟨test_busy_inv, test_halted_inv⟩

theorem test_meets_EveryHistoryRunsAndKeepsInvariant : busy.Inv ∧ halted.Inv := ⟨test_busy_inv, test_halted_inv⟩

/-- Each clause: a word whose step changes the part. -/
theorem test_meets_StepChangesOnlyWhatItsInstructionOwns :
    seen (run 0xF015 busy) (fun t => t.dt != busy.dt) = some true ∧
    seen (run 0xF018 busy) (fun t => t.st != busy.st) = some true ∧
    seen (run 0xF01E busy) (fun t => t.i != busy.i) = some true ∧
    seen (run 0x00EE busy) (fun t => t.sp != busy.sp) = some true ∧
    seen (run 0x2300 busy) (fun t => t.entry 1 != busy.entry 1) = some true ∧
    seen (run 0xD122 busy) (fun t => pixels t 2 [52] != pixels busy 2 [52]) = some true ∧
    seen (run 0xF033 busy) (fun t => t.byteAt 0x301 != busy.byteAt 0x301) = some true := by decide

theorem test_meets_FlagChangesOnlyByItsWriters :
    seen (run 0x8014 busy) (fun t => t.getV vf != busy.getV vf) = some true ∧
    seen (run 0x6F77 busy) (fun t => t.getV vf != busy.getV vf) = some true ∧
    seen (run 0xFF65 busy) (fun t => t.getV vf != busy.getV vf) = some true := by decide

theorem test_meets_FaultRecordIsStickyUntilReset :
    halted.fault.cause ≠ .none ∧ Event.op .reset ∉ [Event.step, .op .timerTick, .op (.loadProgram [1, 2])] ∧
    ∃ t, halted.runEvents [Event.step, .op .timerTick, .op (.loadProgram [1, 2])] = .next t :=
  ⟨by decide, by decide, _, rfl⟩

theorem test_meets_CallThenReturnComesBack :
    (called 15 0x202).sp.toNat < 16 ∧ ∃ t, exec (.call 0x400) (called 15 0x202) = .next t := ⟨by decide, _, rfl⟩

theorem test_meets_StoreThenLoadRestoresRegisters :
    Memory.wf busy.cfg busy.mem = true ∧ busy.i.toNat + (0xF : Reg).toNat ≤ 4095 ∧
    ∃ t, exec (.storeRegisters 0xF) busy = .next t := ⟨by decide, by decide, _, rfl⟩

theorem test_meets_StoredBytesAreFetchedNext :
    let s := { busy with i := 0x211 }
    Memory.wf s.cfg s.mem = true ∧ s.i.toNat + (2 : Reg).toNat ≤ 4095 ∧ (1 : Reg).toNat + 1 ≤ (2 : Reg).toNat ∧
    s.i.toNat + (1 : Reg).toNat = s.pc.toNat + 2 ∧ ∃ t, exec (.storeRegisters 2) s = .next t :=
  ⟨by decide, by decide, by decide, by decide, _, rfl⟩

theorem test_meets_AwaitingKeyMeansNextStepWaits :
    (State.reset.withFetchWord 16 0xF60A).awaitingKey = true ∧ (busy.withFetchWord 16 0xF60A).awaitingKey = false := by
  decide

theorem test_meets_ReportAgreesWithStep : ∃ t, step (State.reset.withFetchWord 16 0x00EE) = .next t := ⟨_, rfl⟩

/-- Each outcome is reported in some state: halted, unknown, both faults, waiting, ok, and ok of a wait that found a key. -/
theorem test_meets_ReportNamesWhatTheStepDid :
    halted.report = some .halted ∧ busy.report = some (.unknown 0) ∧
    ({ busy with pc := 0xFFF } : State).report = some (.faulted .fetchRange) ∧
    (State.reset.withFetchWord 16 0x00EE).report = some (.faulted .stackUnderflow) ∧
    (State.reset.withFetchWord 16 0xF60A).report = some .waiting ∧
    (busy.withFetchWord 16 0x6A55).report = some .ok ∧ (busy.withFetchWord 16 0xF60A).report = some .ok := by decide

theorem test_meets_LoadProgramCopiesTheBytes :
    Memory.wf busy.cfg busy.mem = true ∧ (List.replicate 3584 (0xAB : Byte)).length ≤ 3584 :=
  ⟨by decide, by rw [List.length_replicate]⟩

theorem test_meets_TooLargeProgramIsRefused : (List.replicate 3585 (0xAB : Byte)).length > 3584 := by
  rw [List.length_replicate]
  omega

theorem test_meets_SelfJumpIsFixedPoint :
    let s := ({ busy with pc := 0x300 } : State).withFetchWord 16 0x1300
    s.Executes (.jump 0x300) ∧ (0x300 : Addr12).toNat = s.pc.toNat := ⟨⟨⟨rfl, by decide⟩, by decide⟩, by decide⟩

/-- Two orders of writing, one of them through a byte that is then restored. -/
theorem test_meets_CanonicalMemoryIsItsContents :
    let c := Config.standard
    let m := Memory.write c (Memory.write c [] 0x300 1) 0x4FF 2
    let m' := Memory.write c (Memory.write c (Memory.write c (Memory.write c [] 0x4FF 2) 0x50 9) 0x300 1) 0x50 0xF0
    Memory.wf c m = true ∧ Memory.wf c m' = true ∧ ∀ a, a < 4096 → Memory.read c m a = Memory.read c m' a :=
  ⟨by decide, by decide, fun _ _ => rfl⟩

end Sys2Proof.Tests
end

/-! PROOFS. Control flow (41_control_flow.md): jump and the compare skips. -/

namespace Sys2Proof.Machine

/-! ### The arms of exec -/

theorem exec_jump (nnn : Addr12) (s : State) : exec (.jump nnn) s = .next { s with pc := zextAddr nnn } := rfl

theorem exec_skipIfEqual (x : Reg) (nn : Byte) (s : State) :
    exec (.skipIfEqual x nn) s = .next (s.skipIf (s.getV x == nn)) := rfl

theorem exec_skipIfNotEqual (x : Reg) (nn : Byte) (s : State) :
    exec (.skipIfNotEqual x nn) s = .next (s.skipIf (s.getV x != nn)) := rfl

theorem exec_skipIfRegEqual (x y : Reg) (s : State) :
    exec (.skipIfRegEqual x y) s = .next (s.skipIf (s.getV x == s.getV y)) := rfl

theorem exec_skipIfRegNotEqual (x y : Reg) (s : State) :
    exec (.skipIfRegNotEqual x y) s = .next (s.skipIf (s.getV x != s.getV y)) := rfl

/-! ### Writing PC, and skipping on a condition -/

theorem State.setPc_onlyChanges (s : State) (w : Word) : OnlyChanges [.pc] s { s with pc := w } := by
  intro p hp
  cases p with
  | pc => exact absurd (List.mem_singleton_self _) hp
  | _ => rfl

theorem State.skipIf_onlyChanges (s : State) (taken : Bool) : OnlyChanges [.pc] s (s.skipIf taken) :=
  s.setPc_onlyChanges _

/-- An instruction whose meaning is a skip taken exactly when `c` holds (90_conflicts.md C2: net +4). -/
theorem exec_skips_if {i : Instr} {s : State} {taken : Bool} {c : Prop} [Decidable c]
    (hexec : exec i s = .next (s.skipIf taken)) (htaken : taken = true ↔ c) :
    ∃ t, exec i s = .next t ∧ t.pc = (if c then s.pc + 4 else s.pc + 2) ∧ OnlyChanges [.pc] s t :=
  ⟨_, hexec, by simp only [State.skipIf_pc, htaken], s.skipIf_onlyChanges taken⟩

/-- An instruction whose meaning is a skip taken exactly when `c` fails. -/
theorem exec_skips_unless {i : Instr} {s : State} {taken : Bool} {c : Prop} [Decidable c]
    (hexec : exec i s = .next (s.skipIf taken)) (htaken : taken = true ↔ ¬ c) :
    ∃ t, exec i s = .next t ∧ t.pc = (if c then s.pc + 2 else s.pc + 4) ∧ OnlyChanges [.pc] s t := by
  simpa only [ite_not] using exec_skips_if hexec htaken

/-- Settles O29: each compare skip is a skip taken when its comparison says so. -/
theorem skipsCompare : Obligations.SkipsCompare := by
  intro x y nn s
  refine ⟨?equal, ?notEqual, ?regEqual, ?regNotEqual⟩
  case equal => exact exec_skips_if (exec_skipIfEqual x nn s) beq_iff_eq
  case notEqual => exact exec_skips_unless (exec_skipIfNotEqual x nn s) bne_iff_ne
  case regEqual => exact exec_skips_if (exec_skipIfRegEqual x y s) beq_iff_eq
  case regNotEqual => exact exec_skips_unless (exec_skipIfRegNotEqual x y s) bne_iff_ne

/-- Settles O24: jump writes the zero-extended address to PC and nothing else. -/
theorem jumpGoesToNNN : Obligations.JumpGoesToNNN := by
  intro nnn s
  exact ⟨_, exec_jump nnn s, zextAddr_toNat nnn, s.setPc_onlyChanges _⟩

end Sys2Proof.Machine

/-! PROOFS. Register load, copy and logic (42_alu.md R120 to R125): one register write, then the generic advance. -/

namespace Sys2Proof

/-! ### Families 6 and 7 in format xnn (30_encoding.md R62) -/

theorem decodeWord_family6 (x : Reg) (nn : Byte) : decodeWord (0x6#4 ++ x ++ nn) = some (.setImm x nn) := by
  simp [decodeWord]

theorem decodeWord_family7 (x : Reg) (nn : Byte) : decodeWord (0x7#4 ++ x ++ nn) = some (.addImm x nn) := by
  simp [decodeWord]

end Sys2Proof

namespace Sys2Proof.Machine

/-! ### The arms of exec -/

theorem exec_setImm (x : Reg) (nn : Byte) (s : State) : exec (.setImm x nn) s = .next (s.setV x nn).advance := rfl

theorem exec_addImm (x : Reg) (nn : Byte) (s : State) :
    exec (.addImm x nn) s = .next (s.setV x (add8 (s.getV x) nn)).advance := rfl

theorem exec_setReg (x y : Reg) (s : State) : exec (.setReg x y) s = .next (s.setV x (s.getV y)).advance := rfl

theorem exec_orReg (x y : Reg) (s : State) :
    exec (.orReg x y) s = .next (s.setV x (s.getV x ||| s.getV y)).advance := rfl

theorem exec_andReg (x y : Reg) (s : State) :
    exec (.andReg x y) s = .next (s.setV x (s.getV x &&& s.getV y)).advance := rfl

theorem exec_xorReg (x y : Reg) (s : State) :
    exec (.xorReg x y) s = .next (s.setV x (s.getV x ^^^ s.getV y)).advance := rfl

/-! ### Writing one register, then advancing -/

theorem OnlyChanges.advance {ps : List Part} {s t : State} (h : OnlyChanges ps s t) :
    OnlyChanges (ps ++ [.pc]) s t.advance :=
  (Frame.trans h t.advance_onlyChanges).mono fun _ => List.mem_append.mpr

/-- An instruction whose meaning is to write `b` to Vx and advance. -/
theorem exec_writes_reg {i : Instr} {s : State} {x : Reg} {b : Byte} (hexec : exec i s = .next (s.setV x b).advance) :
    ∃ t, exec i s = .next t ∧ t.getV x = b ∧ t.pc = s.pc + 2 ∧ OnlyChanges [.reg x, .pc] s t :=
  ⟨_, hexec, s.setV_getV_self x b, rfl, (s.setV_onlyChanges x b).advance⟩

/-- Settles O13: copy and each logic instruction write one register, computed from the operands before the write. -/
theorem copyAndLogicWriteOnlyVx : Obligations.CopyAndLogicWriteOnlyVx := by
  intro x y s
  refine ⟨?copy, ?or, ?and, ?xor⟩
  case copy => exact exec_writes_reg (exec_setReg x y s)
  case or => exact exec_writes_reg (exec_orReg x y s)
  case and => exact exec_writes_reg (exec_andReg x y s)
  case xor => exact exec_writes_reg (exec_xorReg x y s)

/-- Settles O11: family 6 decodes to a write of the immediate. -/
theorem setImmediateWritesVx : Obligations.SetImmediateWritesVx := by
  intro x nn s
  exact ⟨decodeWord_family6 x nn, exec_writes_reg (exec_setImm x nn s)⟩

/-- Settles O12: family 7 decodes to a write of the 8-bit sum. -/
theorem addImmediateTruncates : Obligations.AddImmediateTruncates := by
  intro x nn s
  obtain ⟨t, hexec, hsum, hpc, hframe⟩ := exec_writes_reg (exec_addImm x nn s)
  exact ⟨decodeWord_family7 x nn, t, hexec, by rw [hsum, add8_toNat], hpc, hframe⟩

end Sys2Proof.Machine

/-! PROOFS. Set-index (43_index_memory.md R140): one write to I, then the generic advance. -/

namespace Sys2Proof.Machine

theorem exec_setIndex (nnn : Addr12) (s : State) :
    exec (.setIndex nnn) s = .next ({ s with i := zextAddr nnn } : State).advance := rfl

/-! ### Writing I, then advancing -/

theorem State.setI_onlyChanges (s : State) (w : Word) : OnlyChanges [.index] s { s with i := w } := by
  intro p hp
  cases p with
  | index => exact absurd (List.mem_singleton_self _) hp
  | _ => rfl

/-- An instruction whose meaning is to write `w` to I and advance. -/
theorem exec_writes_index {i : Instr} {s : State} {w : Word}
    (hexec : exec i s = .next ({ s with i := w } : State).advance) :
    ∃ t, exec i s = .next t ∧ t.i = w ∧ t.pc = s.pc + 2 ∧ OnlyChanges [.index, .pc] s t :=
  ⟨_, hexec, rfl, rfl, (s.setI_onlyChanges w).advance⟩

/-- Settles O20: set-index writes the zero-extended address to I, and zero extension keeps the number. -/
theorem setIndexWritesI : Obligations.SetIndexWritesI := by
  intro nnn s
  obtain ⟨t, hexec, hindex, hpc, hframe⟩ := exec_writes_index (exec_setIndex nnn s)
  exact ⟨t, hexec, by rw [hindex, zextAddr_toNat], hpc, hframe⟩

end Sys2Proof.Machine

/-! PROOFS. Clear-screen (44_display.md R160): one write to the framebuffer, then the generic advance. -/

namespace Sys2Proof.Machine

theorem exec_clearScreen (s : State) :
    exec .clearScreen s = .next ({ s with fb := Framebuffer.clear } : State).advance := rfl

theorem State.setFb_frame (s : State) (fb : Framebuffer) :
    Frame (fun p => ∃ x y, p = .pixel x y) s { s with fb := fb } := by
  intro p hp
  cases p with
  | pixel x y => exact absurd ⟨x, y, rfl⟩ hp
  | _ => rfl

/-- Settles O35: the framebuffer becomes the clear one, whose pixels are all off, and only it and PC are written. -/
theorem clearScreenTurnsAllPixelsOff : Obligations.ClearScreenTurnsAllPixelsOff := by
  intro s
  refine ⟨_, exec_clearScreen s, ?pixels, State.advance_pc _, ?frame⟩
  case pixels =>
    intro x y
    rw [State.advance_fbRead, State.fbRead_eq]
    exact Framebuffer.get_clear x y
  case frame =>
    refine ((s.setFb_frame Framebuffer.clear).trans (State.advance_onlyChanges _)).mono fun p hp => ?_
    rcases hp with hpixel | hpc
    · exact .inr hpixel
    · exact .inl (List.mem_singleton.mp hpc)

end Sys2Proof.Machine

/-! PROOFS. The timer copies (45_keypad_timers.md R172, R174, R175): one write to Vx or to a timer, then the generic advance. -/

namespace Sys2Proof.Machine

/-! ### The arms of exec -/

theorem exec_getDelay (x : Reg) (s : State) : exec (.getDelay x) s = .next (s.setV x s.dt).advance := rfl

theorem exec_setDelay (x : Reg) (s : State) :
    exec (.setDelay x) s = .next ({ s with dt := s.getV x } : State).advance := rfl

theorem exec_setSound (x : Reg) (s : State) :
    exec (.setSound x) s = .next ({ s with st := s.getV x } : State).advance := rfl

/-! ### Writing a timer -/

theorem State.setDt_onlyChanges (s : State) (b : Byte) : OnlyChanges [.delay] s { s with dt := b } := by
  intro p hp
  cases p with
  | delay => exact absurd (List.mem_singleton_self _) hp
  | _ => rfl

theorem State.setSt_onlyChanges (s : State) (b : Byte) : OnlyChanges [.sound] s { s with st := b } := by
  intro p hp
  cases p with
  | sound => exact absurd (List.mem_singleton_self _) hp
  | _ => rfl

/-- Settles O19: get-delay is a register write; the other two each write one timer, then advance. -/
theorem timerInstructionsCopy : Obligations.TimerInstructionsCopy := by
  intro x s
  refine ⟨?getDelay, ?setDelay, ?setSound⟩
  case getDelay => exact exec_writes_reg (exec_getDelay x s)
  case setDelay =>
    exact ⟨_, exec_setDelay x s, State.advance_dt _, State.advance_pc _, (s.setDt_onlyChanges _).advance⟩
  case setSound =>
    exact ⟨_, exec_setSound x s, State.advance_st _, State.advance_pc _, (s.setSt_onlyChanges _).advance⟩

end Sys2Proof.Machine

/-! PROOFS. The keypad (49_host_interface.md R194): key_write sets one flag, and apart from reset nothing else changes KEY. -/

namespace Sys2Proof.Machine

/-! ### An instruction that raises -/

/-- The three ways to raise (60_exceptions.md R212 to R214). -/
theorem raises_cases {i : Instr} {s : State} {r : Raise} (h : raises s i = some r) :
    ((∃ nnn, i = .call nnn) ∧ s.sp.toNat = 16 ∧ r = ⟨.stackOverflow, 0⟩) ∨
    (i = .ret ∧ s.sp.toNat = 0 ∧ r = ⟨.stackUnderflow, 0⟩) ∨
    (0 < accessLength i ∧ 4096 < s.i.toNat + accessLength i ∧ r = ⟨.dataRange, BitVec.ofNat 16 (max s.i.toNat 4096)⟩) := by
  unfold raises at h
  split at h
  case h_1 =>
    obtain ⟨hsp, hr⟩ := Option.ite_none_right_eq_some.mp h
    exact .inl ⟨⟨_, rfl⟩, hsp, (Option.some.inj hr).symm⟩
  case h_2 =>
    obtain ⟨hsp, hr⟩ := Option.ite_none_right_eq_some.mp h
    exact .inr (.inl ⟨rfl, hsp, (Option.some.inj hr).symm⟩)
  case h_3 =>
    obtain ⟨⟨hpos, hrange⟩, hr⟩ := Option.ite_none_right_eq_some.mp h
    exact .inr (.inr ⟨hpos, by omega, (Option.some.inj hr).symm⟩)

/-- An instruction that accesses memory stands behind the check of its whole range (20_memory.md R46). -/
theorem exec_checks_range {i : Instr} (s : State) (h : 0 < accessLength i) :
    ∃ rule, exec i s = s.settle i (s.checkRange (accessLength i) >>= rule) := by
  cases i with
  | draw | storeBcd | storeRegisters | loadRegisters => exact ⟨_, rfl⟩
  | _ => exact absurd h (Nat.lt_irrefl 0)

theorem exec_of_raises {i : Instr} {s : State} {r : Raise} (h : raises s i = some r) :
    exec i s = .next (s.raise r (encode i)) := by
  obtain ⟨⟨nnn, rfl⟩, hsp, rfl⟩ | ⟨rfl, hsp, rfl⟩ | ⟨hpos, hrange, rfl⟩ := raises_cases h
  · exact if_pos (BitVec.eq_of_toNat_eq hsp)
  · exact if_pos (BitVec.eq_of_toNat_eq hsp)
  · obtain ⟨rule, hexec⟩ := exec_checks_range s hpos
    rw [hexec, State.settle_out_of_range rule hpos hrange]

/-! ### What leaves KEY as it is -/

theorem exec_key {i : Instr} {s t : State} (h : exec i s = .next t) : t.key = s.key := by
  cases hr : raises s i with
  | none => exact (completes_of_exec h hr).key
  | some r =>
    cases (exec_of_raises hr).symm.trans h
    exact s.raise_key r (encode i)

theorem step_key {s t : State} (h : step s = .next t) : t.key = s.key := by
  obtain ⟨-, rfl⟩ | ⟨-, -, rfl⟩ | ⟨-, -, rfl⟩ | ⟨i, -, hexec⟩ := step_cases h
  · rfl
  · exact s.raise_key _ _
  · exact s.advance_key
  · exact exec_key hexec

theorem State.setBytes_key (s : State) (a : Nat) (bs : List Byte) : (s.setBytes a bs).key = s.key := by
  induction bs generalizing s a with
  | nil => rfl
  | cons b bs ih => exact (ih _ _).trans (s.setByte_key a b)

theorem State.loadProgram_key (s : State) (bytes : List Byte) : (s.loadProgram bytes).2.key = s.key := by
  unfold State.loadProgram
  split
  · rfl
  · exact s.setBytes_key 0x200 bytes

/-! ### What changes KEY -/

theorem State.keyWrite_onlyChanges (s : State) (k : Fin 16) (b : Bool) : OnlyChanges [.key k] s (s.keyWrite k b) := by
  intro p hp
  cases p with
  | key j =>
    have hne : k ≠ j := fun h => hp (by simp [h])
    exact (s.keyWrite_keyAt k j b).trans (if_neg hne)
  | _ => rfl

theorem State.resetOp_keyAt (s : State) (k : Fin 16) : s.resetOp.keyAt k = false :=
  Vector.getElem_replicate k.isLt

/-- Settles O53: key_write by the rule for a read after it, the step by its inversion, the other operations by what each does
to KEY. -/
theorem keyChangesOnlyByKeyWrite : Obligations.KeyChangesOnlyByKeyWrite := by
  intro s
  refine ⟨?keyWrite, fun t => step_key, s.timerTick_key, s.loadProgram_key, s.resetOp_keyAt⟩
  case keyWrite =>
    intro k b
    exact ⟨(s.keyWrite_keyAt k k b).trans (if_pos rfl), s.keyWrite_onlyChanges k b⟩

end Sys2Proof.Machine

/-! PROOFS. load_program of too many bytes (60_exceptions.md R215): the length is tested before any byte is written. -/

namespace Sys2Proof.Machine

/-- The refusing branch of load_program: the answer carries the state it was given. -/
theorem State.loadProgram_of_length_gt (s : State) {bytes : List Byte} (hlen : bytes.length > 3584) :
    s.loadProgram bytes = (.romTooLarge, s) := by
  unfold State.loadProgram
  exact if_pos hlen

/-- Settles O55, by the refusing branch of load_program. -/
theorem tooLargeProgramIsRefused : Obligations.TooLargeProgramIsRefused :=
  fun s _ hlen => s.loadProgram_of_length_gt hlen

end Sys2Proof.Machine

/-! PROOFS. The decoder and the encoder (30_encoding.md): each reads the other back, and both agree with the opcode map. -/

namespace Sys2Proof

/-- A known instruction is read back from its encoding, family by family of the nested dispatch. -/
theorem decodeWord_encode (i : Instr) : decodeWord (encode i) = some i := by
  cases i with
  | clearScreen | ret => decide
  | jump | call | setIndex | jumpOffset => simp [encode, decodeWord]
  | skipIfEqual | skipIfNotEqual | setImm | addImm | random => simp [encode, decodeWord]
  | skipIfRegEqual | skipIfRegNotEqual | draw => simp [encode, decodeWord]
  | setReg | orReg | andReg | xorReg | addReg | subReg | shiftRight | subnReg | shiftLeft =>
    simp [encode, decodeWord, decodeFamily8]
  | skipIfKeyPressed | skipIfKeyNotPressed => simp [encode, decodeWord, decodeFamilyE]
  | _ => simp [encode, decodeWord, decodeFamilyF]

theorem decode_encodeBytes (i : Instr) (rest : List Byte) : decode (encodeBytes i ++ rest) = .ok (i, rest) := by
  simp [encodeBytes, decode, decodeWord_encode]

/-! ### The three formats put together again -/

theorem formatNNN_eq {op : Word} {f : BitVec 4} (hf : fieldF op = f) : f ++ fieldNNN op = op := hf ▸ formatNNN_fields op

theorem formatXNN_eq {op : Word} {f : BitVec 4} (hf : fieldF op = f) : f ++ fieldX op ++ fieldNN op = op :=
  hf ▸ formatXNN_fields op

theorem formatXYN_eq {op : Word} {f n : BitVec 4} (hf : fieldF op = f) (hn : fieldN op = n) :
    f ++ fieldX op ++ fieldY op ++ n = op := hf ▸ hn ▸ formatXYN_fields op

theorem formatX_eq {op : Word} {f : BitVec 4} {nn : Byte} (hf : fieldF op = f) (hnn : fieldNN op = nn) :
    f ++ fieldX op ++ nn = op := hnn ▸ formatXNN_eq hf

/-! ### Encoding what a family decodes -/

theorem encode_of_decodeFamily0 {op : Word} {i : Instr} (hf : fieldF op = 0x0#4) (h : decodeFamily0 op = some i) :
    encode i = op := by
  have hop := formatNNN_eq hf
  unfold decodeFamily0 at h
  split_ifs at h with h1 h2
  · cases h
    rw [h1] at hop
    exact hop
  · cases h
    rw [h2] at hop
    exact hop

theorem encode_of_decodeFamily8 {op : Word} {i : Instr} (hf : fieldF op = 0x8#4) (h : decodeFamily8 op = some i) :
    encode i = op := by
  unfold decodeFamily8 at h
  split_ifs at h with hn hn hn hn hn hn hn hn hn <;> cases h <;> exact formatXYN_eq hf hn

theorem encode_of_decodeFamilyE {op : Word} {i : Instr} (hf : fieldF op = 0xE#4) (h : decodeFamilyE op = some i) :
    encode i = op := by
  unfold decodeFamilyE at h
  split_ifs at h with hnn hnn <;> cases h <;> exact formatX_eq hf hnn

theorem encode_of_decodeFamilyF {op : Word} {i : Instr} (hf : fieldF op = 0xF#4) (h : decodeFamilyF op = some i) :
    encode i = op := by
  unfold decodeFamilyF at h
  split_ifs at h with hnn hnn hnn hnn hnn hnn hnn hnn hnn <;> cases h <;> exact formatX_eq hf hnn

/-- The sixteen families of the dispatch on F (30_encoding.md R64). -/
theorem family_cases (f : BitVec 4) :
    f = 0x0#4 ∨ f = 0x1#4 ∨ f = 0x2#4 ∨ f = 0x3#4 ∨ f = 0x4#4 ∨ f = 0x5#4 ∨ f = 0x6#4 ∨ f = 0x7#4 ∨
    f = 0x8#4 ∨ f = 0x9#4 ∨ f = 0xA#4 ∨ f = 0xB#4 ∨ f = 0xC#4 ∨ f = 0xD#4 ∨ f = 0xE#4 ∨ f = 0xF#4 := by
  revert f
  decide

/-- Encoding what the decoder read gives the value back: each branch puts the fields of its format together again. -/
theorem encode_of_decodeWord {op : Word} {i : Instr} (h : decodeWord op = some i) : encode i = op := by
  rcases family_cases (fieldF op) with
    hf | hf | hf | hf | hf | hf | hf | hf | hf | hf | hf | hf | hf | hf | hf | hf <;>
    simp only [decodeWord, hf, reduceIte, BitVec.reduceEq] at h
  · exact encode_of_decodeFamily0 hf h
  · exact Option.some.inj h ▸ formatNNN_eq hf
  · exact Option.some.inj h ▸ formatNNN_eq hf
  · exact Option.some.inj h ▸ formatXNN_eq hf
  · exact Option.some.inj h ▸ formatXNN_eq hf
  · obtain ⟨hn, h⟩ := Option.ite_none_right_eq_some.mp h
    exact Option.some.inj h ▸ formatXYN_eq hf hn
  · exact Option.some.inj h ▸ formatXNN_eq hf
  · exact Option.some.inj h ▸ formatXNN_eq hf
  · exact encode_of_decodeFamily8 hf h
  · obtain ⟨hn, h⟩ := Option.ite_none_right_eq_some.mp h
    exact Option.some.inj h ▸ formatXYN_eq hf hn
  · exact Option.some.inj h ▸ formatNNN_eq hf
  · exact Option.some.inj h ▸ formatNNN_eq hf
  · exact Option.some.inj h ▸ formatXNN_eq hf
  · exact Option.some.inj h ▸ formatXYN_eq hf rfl
  · exact encode_of_decodeFamilyE hf h
  · exact encode_of_decodeFamilyF hf h

/-! ### The opcode map -/

/-- A value that the row of an instruction selects decodes to an instruction of that row. -/
theorem decodeWord_row_of_selects {op : Word} (i : Instr) (h : i.row.selects op = true) :
    (decodeWord op).map Instr.row = some i.row := by
  rw [OpcodeRow.selects, beq_iff_eq] at h
  cases i with
  | clearScreen | ret =>
    cases eq_of_maskFixed h
    decide
  | jump | call | setIndex | jumpOffset | skipIfEqual | skipIfNotEqual | setImm | addImm | random | draw =>
    rw [decodeWord, fieldF_of_maskF h]
    simp [fieldF, Instr.row]
  | skipIfRegEqual | skipIfRegNotEqual =>
    obtain ⟨hf, hn⟩ := fields_of_maskXY h
    rw [decodeWord, hf, hn]
    simp [fieldF, fieldN, Instr.row]
  | setReg | orReg | andReg | xorReg | addReg | subReg | shiftRight | subnReg | shiftLeft =>
    obtain ⟨hf, hn⟩ := fields_of_maskXY h
    rw [decodeWord, decodeFamily8, hf, hn]
    simp [fieldF, fieldN, Instr.row]
  | skipIfKeyPressed | skipIfKeyNotPressed =>
    obtain ⟨hf, hnn⟩ := fields_of_maskX h
    rw [decodeWord, decodeFamilyE, hf, hnn]
    simp [fieldF, fieldNN, Instr.row]
  | _ =>
    obtain ⟨hf, hnn⟩ := fields_of_maskX h
    rw [decodeWord, decodeFamilyF, hf, hnn]
    simp [fieldF, fieldNN, Instr.row]

section
open Laws.EncodesRow

/-- The encoding of an instruction is selected by the instruction's own row. -/
theorem row_selects_encode : ∀ i : Instr, Statement i
  | .clearScreen => clearScreen
  | .ret => ret
  | .jump nnn => jump nnn
  | .call nnn => call nnn
  | .skipIfEqual x nn => skipIfEqual x nn
  | .skipIfNotEqual x nn => skipIfNotEqual x nn
  | .skipIfRegEqual x y => skipIfRegEqual x y
  | .setImm x nn => setImm x nn
  | .addImm x nn => addImm x nn
  | .setReg x y => setReg x y
  | .orReg x y => orReg x y
  | .andReg x y => andReg x y
  | .xorReg x y => xorReg x y
  | .addReg x y => addReg x y
  | .subReg x y => subReg x y
  | .shiftRight x y => shiftRight x y
  | .subnReg x y => subnReg x y
  | .shiftLeft x y => shiftLeft x y
  | .skipIfRegNotEqual x y => skipIfRegNotEqual x y
  | .setIndex nnn => setIndex nnn
  | .jumpOffset nnn => jumpOffset nnn
  | .random x nn => random x nn
  | .draw x y n => draw x y n
  | .skipIfKeyPressed x => skipIfKeyPressed x
  | .skipIfKeyNotPressed x => skipIfKeyNotPressed x
  | .getDelay x => getDelay x
  | .waitForKey x => waitForKey x
  | .setDelay x => setDelay x
  | .setSound x => setSound x
  | .addToIndex x => addToIndex x
  | .loadFontAddress x => loadFontAddress x
  | .storeBcd x => storeBcd x
  | .storeRegisters x => storeRegisters x
  | .loadRegisters x => loadRegisters x

end

theorem row_selects_of_decodeWord {op : Word} {i : Instr} (h : decodeWord op = some i) : i.row.selects op = true := by
  rw [← encode_of_decodeWord h]
  exact row_selects_encode i

theorem row_mem_opcodeMap (i : Instr) : i.row ∈ opcodeMap := by
  cases i <;> simp [opcodeMap, Instr.row]

theorem exists_row_of_mem {r : OpcodeRow} (h : r ∈ opcodeMap) : ∃ i : Instr, i.row = r := by
  obtain ⟨i, -, hi⟩ := List.mem_map.mp h
  exact ⟨i, hi⟩

theorem decodeWord_eq_none_iff (op : Word) : decodeWord op = none ↔ WellFormedWord op = false := by
  rw [WellFormedWord, List.any_eq_false]
  constructor
  · intro h r hr hsel
    obtain ⟨i, rfl⟩ := exists_row_of_mem hr
    simpa [h] using decodeWord_row_of_selects i hsel
  · intro h
    by_contra hsome
    obtain ⟨i, hi⟩ := Option.ne_none_iff_exists'.mp hsome
    exact h i.row (row_mem_opcodeMap i) (row_selects_of_decodeWord hi)

/-! ### The values each family refuses (30_encoding.md R66) -/

theorem decodeFamily0_eq_none (op : Word) :
    decodeFamily0 op = none ↔ fieldNNN op ≠ 0x0E0 ∧ fieldNNN op ≠ 0x0EE := by
  simp [decodeFamily0, ite_eq_none]

theorem decodeFamily8_eq_none (op : Word) :
    decodeFamily8 op = none ↔ fieldN op ∈ [0x8#4, 0x9#4, 0xA#4, 0xB#4, 0xC#4, 0xD#4, 0xF#4] := by
  have named_or_not : ∀ n : BitVec 4, n ∉ [0x0#4, 0x1#4, 0x2#4, 0x3#4, 0x4#4, 0x5#4, 0x6#4, 0x7#4, 0xE#4] ↔
      n ∈ [0x8#4, 0x9#4, 0xA#4, 0xB#4, 0xC#4, 0xD#4, 0xF#4] := by decide
  rw [← named_or_not]
  simp [decodeFamily8, ite_eq_none]

theorem decodeFamilyE_eq_none (op : Word) : decodeFamilyE op = none ↔ fieldNN op ∉ [0x9E#8, 0xA1#8] := by
  simp [decodeFamilyE, ite_eq_none]

theorem decodeFamilyF_eq_none (op : Word) :
    decodeFamilyF op = none ↔
      fieldNN op ∉ [0x07#8, 0x0A#8, 0x15#8, 0x18#8, 0x1E#8, 0x29#8, 0x33#8, 0x55#8, 0x65#8] := by
  simp [decodeFamilyF, ite_eq_none]

end Sys2Proof

namespace Sys2Proof.Machine

/-- Settles O7: the decoder reads the value back, and the two bytes put together are the value. -/
theorem decodeReadsBackEncode : Obligations.DecodeReadsBackEncode :=
  fun i _ => ⟨decodeWord_encode i, decode_encodeBytes i⟩

/-- Settles O8, by the families of the decoder. -/
theorem encodeReadsBackDecode : Obligations.EncodeReadsBackDecode := fun _ _ => encode_of_decodeWord

/-- Settles O9: a row that selects a value is the row of what the value decodes to, so no two rows select it. -/
theorem decoderAgreesWithOpcodeMap : Obligations.DecoderAgreesWithOpcodeMap := by
  intro op
  refine ⟨?disjoint, ?agrees, decodeWord_eq_none_iff op⟩
  case disjoint =>
    intro r r' hr hr' hsel hsel'
    obtain ⟨i, rfl⟩ := exists_row_of_mem hr
    obtain ⟨i', rfl⟩ := exists_row_of_mem hr'
    exact Option.some.inj ((decodeWord_row_of_selects i hsel).symm.trans (decodeWord_row_of_selects i' hsel'))
  case agrees => exact fun i hi => ⟨row_mem_opcodeMap i, row_selects_of_decodeWord hi⟩

/-- Settles O10: each family refuses what its secondary dispatch does not name, and the other families refuse nothing. -/
theorem unknownValuesByFamily : Obligations.UnknownValuesByFamily := by
  intro op
  rw [← decodeFamily0_eq_none, ← decodeFamily8_eq_none, ← decodeFamilyE_eq_none, ← decodeFamilyF_eq_none]
  rcases family_cases (fieldF op) with
    hf | hf | hf | hf | hf | hf | hf | hf | hf | hf | hf | hf | hf | hf | hf | hf <;>
    simp [decodeWord, hf]

/-- Settles O1, by evaluation: the words and bytes are fixed. -/
theorem decodeOfWrittenWords : Obligations.DecodeOfWrittenWords := by
  unfold Obligations.DecodeOfWrittenWords
  decide

end Sys2Proof.Machine

/-! PROOFS. The cycle and its report (40_cycle.md): one equation for each way a step can go. -/

namespace Sys2Proof.Machine

/-! ### The four ways of the cycle (40_cycle.md R80) -/

theorem State.cycle_cases (s : State) :
    s.fault.cause ≠ .none ∨ (s.fault.cause = .none ∧ 0xFFE < s.pc.toNat) ∨
    (s.Ready ∧ decodeWord s.opAtPc = none) ∨ ∃ i, s.Executes i := by
  by_cases hc : s.fault.cause = .none
  · by_cases hp : s.pc.toNat ≤ 0xFFE
    · cases hd : decodeWord s.opAtPc with
      | none => exact .inr (.inr (.inl ⟨⟨hc, hp⟩, rfl⟩))
      | some i => exact .inr (.inr (.inr ⟨i, ⟨hc, hp⟩, hd⟩))
    · exact .inr (.inl ⟨hc, by omega⟩)
  · exact .inl hc

theorem step_of_halted {s : State} (h : s.fault.cause ≠ .none) : step s = .next s := if_pos h

theorem step_of_fetch_gt {s : State} (hc : s.fault.cause = .none) (hp : 0xFFE < s.pc.toNat) :
    step s = .next (s.raise ⟨.fetchRange, if 4095 < s.pc.toNat then s.pc else 0x1000⟩ 0) := by
  rw [step, if_neg (not_not.mpr hc), State.fetch_of_gt hp]
  rfl

theorem step_of_unknown {s : State} (h : s.Ready) (hd : decodeWord s.opAtPc = none) : step s = .next s.advance := by
  rw [step, if_neg (not_not.mpr h.1), State.fetch_of_le h.2]
  simp only [hd]
  rfl

theorem step_of_executes {s : State} {i : Instr} (h : s.Executes i) : step s = exec i s := by
  obtain ⟨⟨hc, hp⟩, hd⟩ := h
  rw [step, if_neg (not_not.mpr hc), State.fetch_of_le hp]
  simp only [hd]

theorem State.report_of_halted {s : State} (h : s.fault.cause ≠ .none) : s.report = some .halted := if_pos h

theorem State.report_of_fetch_gt {s : State} (hc : s.fault.cause = .none) (hp : 0xFFE < s.pc.toNat) :
    s.report = some (.faulted .fetchRange) := by
  rw [State.report, if_neg (not_not.mpr hc), State.fetch_of_gt hp]

theorem State.report_of_unknown {s : State} (h : s.Ready) (hd : decodeWord s.opAtPc = none) :
    s.report = some (.unknown s.opAtPc) := by
  rw [State.report, if_neg (not_not.mpr h.1), State.fetch_of_le h.2]
  simp only [hd]

theorem State.report_of_exec_next {s t : State} {i : Instr} (h : s.Executes i) (he : exec i s = .next t) :
    s.report = some (s.reportOf i t) := by
  obtain ⟨⟨hc, hp⟩, hd⟩ := h
  rw [State.report, if_neg (not_not.mpr hc), State.fetch_of_le hp]
  simp only [hd, he]

theorem State.report_of_exec_fault {s : State} {i : Instr} {f : Fault} (h : s.Executes i) (he : exec i s = .fault f) :
    s.report = none := by
  obtain ⟨⟨hc, hp⟩, hd⟩ := h
  rw [State.report, if_neg (not_not.mpr hc), State.fetch_of_le hp]
  simp only [hd, he]

theorem decodeWord_of_decode {first second : Byte} {rest rest' : List Byte} {i : Instr}
    (h : decode (first :: second :: rest) = .ok (i, rest')) : decodeWord (wordOfBytes first second) = some i := by
  cases hd : decodeWord (wordOfBytes first second) with
  | none => simp [decode, hd] at h
  | some j =>
    simp only [decode, hd] at h
    cases h
    rfl

/-- Settles O2: the value of the two bytes at PC is the value the step decodes. -/
theorem stepRunsDecodedInstruction : Obligations.StepRunsDecodedInstruction :=
  fun _ _ _ hready _ hdecode => step_of_executes ⟨hready, decodeWord_of_decode hdecode⟩

/-- Settles O3: the step is the advance and nothing else. -/
theorem unknownInstructionOnlyAdvances : Obligations.UnknownInstructionOnlyAdvances :=
  fun s hready hd =>
    ⟨State.report_of_unknown hready hd, s.advance, step_of_unknown hready hd, s.advance_pc, s.advance_onlyChanges⟩

/-- Settles O4, by the halted check, which comes first. -/
theorem haltedStepChangesNothing : Obligations.HaltedStepChangesNothing :=
  fun _ h => ⟨step_of_halted h, State.report_of_halted h⟩

/-- Settles O5: the fetch raises, and taking the fault writes only FAULT. -/
theorem fetchBeyondMemoryFaults : Obligations.FetchBeyondMemoryFaults :=
  fun s hc hp =>
    ⟨State.report_of_fetch_gt hc hp, _, step_of_fetch_gt hc hp, s.raise_onlyChanges _ _, s.raise_fault _ _⟩

/-! ### What an executed instruction can do -/

theorem State.settle_next (s : State) (i : Instr) (rule : Except Raise State) : ∃ t, s.settle i rule = .next t := by
  cases rule with
  | ok t => exact ⟨t, rfl⟩
  | error r => exact ⟨_, rfl⟩

theorem exec_call_of_lt {s : State} (nnn : Addr12) (h : s.sp.toNat < 16) :
    exec (.call nnn) s = .next { s.push (s.pc + 2) h with pc := zextAddr nnn } := by
  have hne : s.sp ≠ 16 := by bv_omega
  exact (if_neg hne).trans (dif_pos h)

theorem exec_ret_of_pos {s : State} (hpos : 0 < s.sp.toNat) (h : s.sp.toNat - 1 < 16) :
    exec .ret s = .next { s with sp := s.sp - 1, pc := s.entry ⟨s.sp.toNat - 1, h⟩ } := by
  have hne : s.sp ≠ 0 := by bv_omega
  exact (if_neg hne).trans (dif_pos h)

theorem exec_call_of_gt {s : State} (nnn : Addr12) (h : 16 < s.sp.toNat) :
    exec (.call nnn) s = .fault .stackPointerIllegal := by
  have hne : s.sp ≠ 16 := by bv_omega
  exact (if_neg hne).trans (dif_neg (by omega))

theorem exec_ret_of_gt {s : State} (h : 16 < s.sp.toNat) : exec .ret s = .fault .stackPointerIllegal := by
  have hne : s.sp ≠ 0 := by bv_omega
  exact (if_neg hne).trans (dif_neg (by omega))

/-- Settles O28: neither finds the entry its rule names. -/
theorem illegalStackPointerStops : Obligations.IllegalStackPointerStops :=
  fun nnn _ h => ⟨exec_call_of_gt nnn h, exec_ret_of_gt h⟩

/-- Execution answers a next state, except that call and return stop where SP is above 16 (log 5). -/
theorem exec_next_or_stops (i : Instr) (s : State) :
    (∃ t, exec i s = .next t) ∨ (16 < s.sp.toNat ∧ exec i s = .fault .stackPointerIllegal) := by
  cases i with
  | call nnn =>
    rcases Nat.lt_trichotomy s.sp.toNat 16 with h | h | h
    · exact .inl ⟨_, exec_call_of_lt nnn h⟩
    · exact .inl ⟨_, if_pos (BitVec.eq_of_toNat_eq h)⟩
    · exact .inr ⟨h, exec_call_of_gt nnn h⟩
  | ret =>
    rcases Nat.eq_zero_or_pos s.sp.toNat with h | h
    · exact .inl ⟨_, if_pos (BitVec.eq_of_toNat_eq h)⟩
    · by_cases hle : s.sp.toNat - 1 < 16
      · exact .inl ⟨_, exec_ret_of_pos h hle⟩
      · exact .inr ⟨by omega, exec_ret_of_gt (by omega)⟩
  | draw | storeBcd | storeRegisters | loadRegisters => exact .inl (s.settle_next _ _)
  | waitForKey x =>
    left
    change ∃ t, execWaitForKey x s = _
    unfold execWaitForKey
    split
    · exact ⟨_, rfl⟩
    · exact ⟨_, rfl⟩
  | _ => exact .inl ⟨_, rfl⟩

/-- It takes the fault the table gives it, completes without one, or stops. -/
theorem exec_cases (i : Instr) (s : State) :
    (∃ r, raises s i = some r ∧ exec i s = .next (s.raise r (encode i))) ∨
    (raises s i = none ∧ ∃ t, exec i s = .next t ∧ Completes i s t) ∨
    (raises s i = none ∧ 16 < s.sp.toNat ∧ exec i s = .fault .stackPointerIllegal) := by
  cases hr : raises s i with
  | some r => exact .inl ⟨r, rfl, exec_of_raises hr⟩
  | none =>
    rcases exec_next_or_stops i s with ⟨t, ht⟩ | hstop
    · exact .inr (.inl ⟨rfl, t, ht, completes_of_exec ht hr⟩)
    · exact .inr (.inr ⟨rfl, hstop⟩)

theorem raises_cause_ne_none {i : Instr} {s : State} {r : Raise} (h : raises s i = some r) : r.cause ≠ .none := by
  obtain ⟨-, -, rfl⟩ | ⟨-, -, rfl⟩ | ⟨-, -, rfl⟩ := raises_cases h <;> simp

/-! ### The report of an executed instruction -/

theorem State.waitsOn_iff {s : State} {i : Instr} :
    s.waitsOn i = true ↔ (∃ x, i = .waitForKey x) ∧ ∀ k, s.keyAt k = false := by
  cases i with
  | waitForKey x => simp [State.waitsOn, State.leastKey_eq_none]
  | _ => simp [State.waitsOn]

theorem State.report_of_raises {s : State} {i : Instr} {r : Raise} (h : s.Executes i) (hr : raises s i = some r) :
    s.report = some (.faulted r.cause) := by
  rw [State.report_of_exec_next h (exec_of_raises hr), State.reportOf]
  exact congrArg some (if_pos (raises_cause_ne_none hr))

theorem State.report_of_completes {s t : State} {i : Instr} (h : s.Executes i) (he : exec i s = .next t)
    (hr : raises s i = none) : s.report = some (if s.waitsOn i then .waiting else .ok) := by
  have hfault : t.fault.cause = .none := by
    rw [(completes_of_exec he hr).fault]
    exact h.1.1
  rw [State.report_of_exec_next h he, State.reportOf, if_neg (not_not.mpr hfault)]

/-- What a step did, by what it reports. -/
inductive State.Reports (s : State) : Option StepReport → Prop where
  | halted (hc : s.fault.cause ≠ .none) : s.Reports (some .halted)
  | fetchFault (hc : s.fault.cause = .none) (hp : 0xFFE < s.pc.toNat) : s.Reports (some (.faulted .fetchRange))
  | unknown (hready : s.Ready) (hd : decodeWord s.opAtPc = none) : s.Reports (some (.unknown s.opAtPc))
  | raised {i : Instr} {r : Raise} (hi : s.Executes i) (hr : raises s i = some r) : s.Reports (some (.faulted r.cause))
  | waited {i : Instr} (hi : s.Executes i) (hw : s.waitsOn i = true) : s.Reports (some .waiting)
  | completed {i : Instr} {t : State} (hi : s.Executes i) (hr : raises s i = none) (he : exec i s = .next t)
      (hw : ¬ s.waitsOn i = true) : s.Reports (some .ok)
  | stopped {i : Instr} (hi : s.Executes i) (he : exec i s = .fault .stackPointerIllegal) : s.Reports none

theorem State.reports_report (s : State) : s.Reports s.report := by
  rcases s.cycle_cases with hc | ⟨hc, hp⟩ | ⟨hready, hd⟩ | ⟨i, hi⟩
  · rw [State.report_of_halted hc]
    exact .halted hc
  · rw [State.report_of_fetch_gt hc hp]
    exact .fetchFault hc hp
  · rw [State.report_of_unknown hready hd]
    exact .unknown hready hd
  · rcases exec_cases i s with ⟨r, hr, -⟩ | ⟨hr, t, ht, -⟩ | ⟨-, -, hstop⟩
    · rw [State.report_of_raises hi hr]
      exact .raised hi hr
    · rw [State.report_of_completes hi ht hr]
      split
      · next hw => exact .waited hi hw
      · next hw => exact .completed hi hr ht hw
    · rw [State.report_of_exec_fault hi hstop]
      exact .stopped hi hstop

/-- The inversion of the report. -/
theorem State.reports_of_report {s : State} {o : Option StepReport} (h : s.report = o) : s.Reports o :=
  h ▸ s.reports_report

theorem State.report_eq_halted {s : State} : s.report = some .halted ↔ s.fault.cause ≠ .none := by
  refine ⟨fun h => ?_, State.report_of_halted⟩
  cases State.reports_of_report h with
  | halted hc => exact hc

theorem State.report_eq_unknown {s : State} {op : Word} :
    s.report = some (.unknown op) ↔ s.Ready ∧ decodeWord s.opAtPc = none ∧ op = s.opAtPc := by
  constructor
  · intro h
    cases State.reports_of_report h with
    | unknown hready hd => exact ⟨hready, hd, rfl⟩
  · rintro ⟨hready, hd, rfl⟩
    exact State.report_of_unknown hready hd

theorem State.report_eq_faulted {s : State} {c : FaultCause} :
    s.report = some (.faulted c) ↔ (s.fault.cause = .none ∧ 0xFFE < s.pc.toNat ∧ c = .fetchRange) ∨
      ∃ i r, s.Executes i ∧ raises s i = some r ∧ c = r.cause := by
  constructor
  · intro h
    cases State.reports_of_report h with
    | fetchFault hc hp => exact .inl ⟨hc, hp, rfl⟩
    | raised hi hr => exact .inr ⟨_, _, hi, hr, rfl⟩
  · rintro (⟨hc, hp, rfl⟩ | ⟨i, r, hi, hr, rfl⟩)
    · exact State.report_of_fetch_gt hc hp
    · exact State.report_of_raises hi hr

theorem raises_waitForKey (s : State) (x : Reg) : raises s (.waitForKey x) = none := rfl

theorem exec_waitForKey_of_none {s : State} (x : Reg) (hk : ∀ k, s.keyAt k = false) :
    exec (.waitForKey x) s = .next s := by
  change execWaitForKey x s = _
  rw [execWaitForKey, State.leastKey_eq_none.mpr hk]

theorem State.report_eq_waiting {s : State} :
    s.report = some .waiting ↔ ∃ x, s.Executes (.waitForKey x) ∧ ∀ k, s.keyAt k = false := by
  constructor
  · intro h
    cases State.reports_of_report h with
    | waited hi hw =>
      obtain ⟨⟨x, rfl⟩, hk⟩ := State.waitsOn_iff.mp hw
      exact ⟨x, hi, hk⟩
  · rintro ⟨x, hi, hk⟩
    rw [State.report_of_completes hi (exec_waitForKey_of_none x hk) (raises_waitForKey s x),
      if_pos (State.waitsOn_iff.mpr ⟨⟨x, rfl⟩, hk⟩)]

theorem State.report_eq_ok {s : State} :
    s.report = some .ok ↔ ∃ i t, s.Executes i ∧ raises s i = none ∧ exec i s = .next t ∧
      ¬((∃ x, i = .waitForKey x) ∧ ∀ k, s.keyAt k = false) := by
  constructor
  · intro h
    cases State.reports_of_report h with
    | completed hi hr he hw => exact ⟨_, _, hi, hr, he, fun hwait => hw (State.waitsOn_iff.mpr hwait)⟩
  · rintro ⟨i, t, hi, hr, he, hw⟩
    rw [State.report_of_completes hi he hr, if_neg fun hwait => hw (State.waitsOn_iff.mp hwait)]

/-- Settles O59: one clause for each outcome, by the inversion of the report and the equation of the way it names. -/
theorem reportNamesWhatTheStepDid : Obligations.ReportNamesWhatTheStepDid :=
  fun _ => ⟨State.report_eq_halted, fun _ => State.report_eq_unknown, fun _ => State.report_eq_faulted,
    State.report_eq_waiting, State.report_eq_ok⟩

/-! ### The report and the states before and after -/

theorem State.report_eq_none {s : State} : s.report = none ↔ ∀ t, step s ≠ .next t := by
  constructor
  · intro h t ht
    cases State.reports_of_report h with
    | stopped hi he =>
      rw [step_of_executes hi, he] at ht
      cases ht
  · intro h
    rcases s.cycle_cases with hc | ⟨hc, hp⟩ | ⟨hready, hd⟩ | ⟨i, hi⟩
    · exact absurd (step_of_halted hc) (h _)
    · exact absurd (step_of_fetch_gt hc hp) (h _)
    · exact absurd (step_of_unknown hready hd) (h _)
    · rcases exec_next_or_stops i s with ⟨t, ht⟩ | ⟨-, hstop⟩
      · exact absurd ((step_of_executes hi).trans ht) (h t)
      · exact State.report_of_exec_fault hi hstop

/-- A step records a fault exactly when it reports it. -/
theorem State.report_eq_faulted_iff_recorded {s t : State} (h : step s = .next t) (c : FaultCause) :
    s.report = some (.faulted c) ↔ s.fault.cause = .none ∧ t.fault.cause = c ∧ c ≠ .none := by
  constructor
  · intro hrep
    cases State.reports_of_report hrep with
    | fetchFault hc hp =>
      cases (step_of_fetch_gt hc hp).symm.trans h
      exact ⟨hc, rfl, by simp⟩
    | raised hi hr =>
      cases ((step_of_executes hi).trans (exec_of_raises hr)).symm.trans h
      exact ⟨hi.1.1, rfl, raises_cause_ne_none hr⟩
  · rintro ⟨hc, rfl, hne⟩
    obtain ⟨hhalted, -⟩ | ⟨-, hp, rfl⟩ | ⟨-, -, rfl⟩ | ⟨i, hi, he⟩ := step_cases h
    · exact absurd hc hhalted
    · exact State.report_of_fetch_gt hc hp
    · exact absurd hc hne
    · cases hr : raises s i with
      | none => exact absurd ((congrArg FaultRecord.cause (completes_of_exec he hr).fault).trans hc) hne
      | some r =>
        cases (exec_of_raises hr).symm.trans he
        exact State.report_of_raises hi hr

/-- Settles O51: the model stops exactly where it gives no report, and FAULTED is reported by the two ways that record. -/
theorem reportAgreesWithStep : Obligations.ReportAgreesWithStep :=
  fun _ => ⟨State.report_eq_none, fun _ h => ⟨State.report_eq_halted, State.report_eq_faulted_iff_recorded h⟩⟩

/-! ### The derived flag of status_read (49_host_interface.md R198) -/

theorem decodeWord_eq_waitForKey {op : Word} : (∃ x, decodeWord op = some (.waitForKey x)) ↔ op &&& 0xF0FF = 0xF00A := by
  constructor
  · rintro ⟨x, h⟩
    exact beq_iff_eq.mp (row_selects_of_decodeWord h)
  · intro h
    obtain ⟨hf, hnn⟩ := fields_of_maskX h
    refine ⟨fieldX op, ?_⟩
    rw [decodeWord, decodeFamilyF, hf, hnn]
    simp [fieldF, fieldNN]

theorem State.no_key_iff (s : State) : s.key.toList.all (fun b => !b) = true ↔ ∀ k, s.keyAt k = false := by
  rw [← State.leastKey_eq_none, State.leastKey, List.findIdx?_eq_none_iff]
  simp only [List.all_eq_true, Bool.not_eq_true', id]

theorem State.awaitingKey_iff {s : State} :
    s.awaitingKey = true ↔ ∃ x, s.Executes (.waitForKey x) ∧ ∀ k, s.keyAt k = false := by
  unfold State.awaitingKey State.Executes State.Ready
  rw [Bool.and_eq_true, Bool.and_eq_true, Bool.and_eq_true, decide_eq_true_iff, decide_eq_true_iff, beq_iff_eq,
    ← decodeWord_eq_waitForKey, s.no_key_iff]
  constructor
  · rintro ⟨⟨⟨hc, hp⟩, x, hd⟩, hk⟩
    exact ⟨x, ⟨⟨hc, hp⟩, hd⟩, hk⟩
  · rintro ⟨x, ⟨⟨hc, hp⟩, hd⟩, hk⟩
    exact ⟨⟨⟨hc, hp⟩, x, hd⟩, hk⟩

/-- Settles O50: both sides say that wait-for-key is executed with no key pressed. -/
theorem awaitingKeyMeansNextStepWaits : Obligations.AwaitingKeyMeansNextStepWaits := by
  intro s
  refine ⟨State.awaitingKey_iff.trans State.report_eq_waiting.symm, fun h => ?_⟩
  obtain ⟨x, hi, hk⟩ := State.awaitingKey_iff.mp h
  rw [step_of_executes hi, exec_waitForKey_of_none x hk]

/-- Settles O56: the jump writes to PC the address it holds. -/
theorem selfJumpIsFixedPoint : Obligations.SelfJumpIsFixedPoint := by
  intro s nnn hi hpc
  have hself : zextAddr nnn = s.pc := BitVec.eq_of_toNat_eq ((zextAddr_toNat nnn).trans hpc)
  have hexec : exec (.jump nnn) s = .next s := by rw [exec_jump, hself]
  exact ⟨(step_of_executes hi).trans hexec, State.report_of_completes hi hexec rfl⟩

end Sys2Proof.Machine

/-! PROOFS. The invariant of the machine: every step and every outside operation keeps it, and no history stops. -/

namespace Sys2Proof.Machine

/-! ### The fault record fits the state -/

theorem raises_congr {s t : State} (hsp : t.sp = s.sp) (hi : t.i = s.i) (i : Instr) : raises t i = raises s i := by
  unfold raises
  rw [hsp, hi]

theorem State.faultFits_of_clear {s : State} (h : s.fault = FaultRecord.clear) : s.FaultFits := by
  unfold State.FaultFits
  rw [h]
  rfl

theorem State.FaultFits.congr {s t : State} (h : s.FaultFits) (hfault : t.fault = s.fault) (hpc : t.pc = s.pc)
    (hsp : t.sp = s.sp) (hi : t.i = s.i) : t.FaultFits := by
  unfold State.FaultFits
  simp only [hfault, hpc, raises_congr hsp hi]
  exact h

theorem State.FaultFits.clear_of_none {s : State} (h : s.FaultFits) (hc : s.fault.cause = .none) :
    s.fault = FaultRecord.clear := by
  unfold State.FaultFits at h
  rw [hc] at h
  exact h

theorem State.raise_fetch_faultFits {s : State} (hp : 0xFFE < s.pc.toNat) :
    (s.raise ⟨.fetchRange, if 4095 < s.pc.toNat then s.pc else 0x1000⟩ 0).FaultFits :=
  ⟨rfl, rfl, hp, rfl⟩

theorem State.raise_faultFits {s : State} {i : Instr} {r : Raise} (hp : s.pc.toNat ≤ 0xFFE) (hr : raises s i = some r) :
    (s.raise r (encode i)).FaultFits := by
  have hrecord : s.pc = s.pc ∧ s.pc.toNat ≤ 0xFFE ∧
      ∃ j, encode i = encode j ∧ raises (s.raise r (encode i)) j = some ⟨r.cause, r.addr⟩ :=
    ⟨rfl, hp, i, rfl, hr⟩
  obtain ⟨-, -, rfl⟩ | ⟨-, -, rfl⟩ | ⟨-, -, rfl⟩ := raises_cases hr <;> exact hrecord

/-! ### A step -/

theorem State.Inv.raise {s : State} {r : Raise} {op : Word} (h : s.Inv) (hfits : (s.raise r op).FaultFits) :
    (s.raise r op).Inv := ⟨h.memory, h.sp, h.pc, h.stack, hfits⟩

theorem Completes.inv {i : Instr} {s t : State} (hc : Completes i s t) (hready : s.Ready) (h : s.Inv) : t.Inv := by
  obtain ⟨hnone, hle⟩ := hready
  refine ⟨?memory, ?sp, ?pc, ?stack, ?fault⟩
  case memory =>
    rcases hc.mem with hmem | ⟨-, hwf⟩
    · rw [hc.cfg, hmem]
      exact h.memory
    · exact hwf h.memory
  case sp =>
    have := h.sp
    rcases hc.sp with hsp | ⟨-, hsp, hpos, -⟩ | ⟨-, hsp, hlt⟩ <;> rw [hsp] <;> bv_omega
  case pc =>
    rcases hc.pc with hpc | hpc | hpc | hpc | ⟨j, hpc⟩
    · rw [hpc]
      exact h.pc
    · rw [hpc]
      bv_omega
    · rw [hpc]
      bv_omega
    · exact hpc
    · rw [hpc]
      exact (h.stack j).trans (by decide)
  case stack =>
    intro j
    rcases hc.stack with hstack | ⟨-, k, hstack⟩
    · rw [State.entry, hstack]
      exact h.stack j
    · rw [State.entry, hstack]
      change ((s.setEntry k (s.pc + 2)).entry j).toNat ≤ _
      rw [State.setEntry_entry]
      split
      · bv_omega
      · exact h.stack j
  case fault => exact State.faultFits_of_clear (hc.fault.trans (h.fault.clear_of_none hnone))

theorem State.Inv.advance {s : State} (h : s.Inv) (hready : s.Ready) : s.advance.Inv := by
  obtain ⟨hnone, hle⟩ := hready
  refine ⟨h.memory, h.sp, ?_, h.stack, State.faultFits_of_clear (h.fault.clear_of_none hnone)⟩
  rw [State.advance_pc]
  bv_omega

theorem State.Inv.step {s t : State} (h : s.Inv) (hstep : step s = .next t) : t.Inv := by
  obtain ⟨-, rfl⟩ | ⟨-, hp, rfl⟩ | ⟨hready, -, rfl⟩ | ⟨i, hi, hexec⟩ := step_cases hstep
  · exact h
  · exact h.raise (State.raise_fetch_faultFits hp)
  · exact h.advance hready
  · cases hr : raises s i with
    | none => exact (completes_of_exec hexec hr).inv hi.1 h
    | some r =>
      cases (exec_of_raises hr).symm.trans hexec
      exact h.raise (State.raise_faultFits hi.1.2 hr)

/-- Settles O41, by the inversion of the step: only an instruction that completes moves more than PC and FAULT. -/
theorem stepKeepsInvariant : Obligations.StepKeepsInvariant := fun _ _ => State.Inv.step

/-- With SP at most 16 no step stops. -/
theorem State.Inv.step_next {s : State} (h : s.Inv) : ∃ t, Machine.step s = .next t := by
  rcases s.cycle_cases with hc | ⟨hc, hp⟩ | ⟨hready, hd⟩ | ⟨i, hi⟩
  · exact ⟨_, step_of_halted hc⟩
  · exact ⟨_, step_of_fetch_gt hc hp⟩
  · exact ⟨_, step_of_unknown hready hd⟩
  · rw [step_of_executes hi]
    exact (exec_next_or_stops i s).resolve_right fun hstop => absurd h.sp (by omega)

/-! ### The outside operations -/

theorem State.resetWith_inv (c : Config) (draws : Nat) : (State.resetWith c draws).Inv where
  memory := Memory.wf_nil c
  sp := Nat.zero_le 16
  pc := (by decide : (0x0200 : Word).toNat ≤ 0x10FE)
  stack j := by
    have hzero : (State.resetWith c draws).entry j = 0 := Vector.getElem_replicate j.isLt
    rw [hzero]
    decide
  fault := State.faultFits_of_clear rfl

theorem State.MemoryIs.inv {s t : State} {f : Nat → Byte} (ht : s.MemoryIs t f) (h : s.Inv) : t.Inv := by
  obtain ⟨hrest, hwf, -⟩ := ht
  refine ⟨hwf, ?_, ?_, ?_, h.fault.congr ?_ ?_ ?_ ?_⟩ <;> rw [hrest]
  · exact h.sp
  · exact h.pc
  · exact h.stack

theorem State.loadProgram_of_length_le (s : State) {bytes : List Byte} (hlen : bytes.length ≤ 3584) :
    s.loadProgram bytes = (.loaded, s.setBytes 0x200 bytes) := if_neg (by omega)

theorem State.Inv.loadProgram {s : State} (h : s.Inv) (bytes : List Byte) : (s.loadProgram bytes).2.Inv := by
  by_cases hlen : bytes.length ≤ 3584
  · rw [s.loadProgram_of_length_le hlen]
    exact (State.setBytes_spec (by omega) h.memory).inv h
  · rw [s.loadProgram_of_length_gt (by omega)]
    exact h

theorem State.Inv.apply {s : State} (h : s.Inv) (o : HostOp) : (s.apply o).Inv := by
  cases o with
  | reset => exact State.resetWith_inv _ _
  | loadProgram bytes => exact h.loadProgram bytes
  | keyWrite k b => exact ⟨h.memory, h.sp, h.pc, h.stack, h.fault.congr rfl rfl rfl rfl⟩
  | timerTick => exact ⟨h.memory, h.sp, h.pc, h.stack, h.fault.congr rfl rfl rfl rfl⟩

/-- Settles O40: State.reset holds reset values. -/
theorem invariantHoldsAtReset : Obligations.InvariantHoldsAtReset := State.resetWith_inv _ _

/-- Settles O42, operation by operation. -/
theorem operationsKeepInvariant : Obligations.OperationsKeepInvariant :=
  ⟨fun _ => State.resetWith_inv _ _, fun _ o h => h.apply o⟩

/-! ### Histories -/

theorem State.Inv.event {s : State} (h : s.Inv) (e : Event) : ∃ t, s.event e = .next t ∧ t.Inv := by
  cases e with
  | step =>
    obtain ⟨t, ht⟩ := h.step_next
    exact ⟨t, ht, h.step ht⟩
  | op o => exact ⟨_, rfl, h.apply o⟩

theorem State.runEvents_cons {s t : State} {e : Event} (es : List Event) (h : s.event e = .next t) :
    s.runEvents (e :: es) = t.runEvents es := by
  rw [State.runEvents, h]

/-- Settles O43, by induction on the history: each event answers a next state that meets the invariant. -/
theorem everyHistoryRunsAndKeepsInvariant : Obligations.EveryHistoryRunsAndKeepsInvariant := by
  intro es
  induction es with
  | nil => exact fun s h => ⟨s, rfl, h⟩
  | cons e es ih =>
    intro s h
    obtain ⟨t, ht, htinv⟩ := h.event e
    rw [State.runEvents_cons es ht]
    exact ih t htinv

end Sys2Proof.Machine

/-! PROOFS. Who may write which part (10_state.md section 2), the sticky fault record, and that nothing reads ST. -/

namespace Sys2Proof.Machine

/-! ### Ownership -/

/-- A step executes an instruction that completes, or it changes at most PC and FAULT. -/
theorem step_completes_or_keeps {s t : State} (h : step s = .next t) :
    (∃ i, s.Executes i ∧ raises s i = none ∧ exec i s = .next t) ∨ t = { s with pc := t.pc, fault := t.fault } := by
  obtain ⟨-, rfl⟩ | ⟨-, -, rfl⟩ | ⟨-, -, rfl⟩ | ⟨i, hi, hexec⟩ := step_cases h
  · exact .inr rfl
  · exact .inr rfl
  · exact .inr rfl
  · cases hr : raises s i with
    | none => exact .inl ⟨i, hi, hr, hexec⟩
    | some r =>
      cases (exec_of_raises hr).symm.trans hexec
      exact .inr rfl

/-- Settles O44: the inversion of an instruction that completes names the writers of each part. -/
theorem stepChangesOnlyWhatItsInstructionOwns : Obligations.StepChangesOnlyWhatItsInstructionOwns := by
  intro s t h
  rcases step_completes_or_keeps h with ⟨i, hi, hr, hexec⟩ | hkeeps
  · have hc := completes_of_exec hexec hr
    refine ⟨hc.key, hc.cfg, fun hne => ?dt, fun hne => ?st, fun hne => ?index, fun hne => ?sp, fun hne => ?stack,
      fun hne => ?fb, fun hne => ?mem⟩
    case dt =>
      obtain ⟨x, rfl⟩ := hc.dt.resolve_left hne
      exact ⟨x, hi⟩
    case st =>
      obtain ⟨x, rfl⟩ := hc.st.resolve_left hne
      exact ⟨x, hi⟩
    case index =>
      obtain ⟨nnn, rfl⟩ | ⟨x, rfl⟩ | ⟨x, rfl⟩ := hc.index.resolve_left hne
      · exact .inl ⟨nnn, hi⟩
      · exact .inr (.inl ⟨x, hi⟩)
      · exact .inr (.inr ⟨x, hi⟩)
    case sp =>
      obtain ⟨rfl, -⟩ | ⟨⟨nnn, rfl⟩, -⟩ := hc.sp.resolve_left hne
      · exact .inl hi
      · exact .inr ⟨nnn, hi⟩
    case stack =>
      obtain ⟨⟨nnn, rfl⟩, -⟩ := hc.stack.resolve_left hne
      exact ⟨nnn, hi⟩
    case fb =>
      obtain rfl | ⟨x, y, n, rfl⟩ := hc.fb.resolve_left hne
      · exact .inl hi
      · exact .inr ⟨x, y, n, hi⟩
    case mem =>
      obtain ⟨⟨x, rfl⟩ | ⟨x, rfl⟩, -⟩ := hc.mem.resolve_left hne
      · exact .inl ⟨x, hi⟩
      · exact .inr ⟨x, hi⟩
  · rw [hkeeps]
    refine ⟨rfl, rfl, ?_, ?_, ?_, ?_, ?_, ?_, ?_⟩ <;> exact fun hne => absurd rfl hne

/-! ### A halted engine (60_exceptions.md R221) -/

/-- What nothing but reset changes once a fault is recorded. -/
def State.haltedView (s : State) : FaultRecord × Word × Vector Byte 16 × Word × Byte × Vector Word 16 × Framebuffer :=
  (s.fault, s.pc, s.v, s.i, s.sp, s.stack, s.fb)

theorem State.setBytes_haltedView (s : State) (a : Nat) (bs : List Byte) :
    (s.setBytes a bs).haltedView = s.haltedView := by
  induction bs generalizing s a with
  | nil => rfl
  | cons b bs ih => exact ih _ _

theorem State.loadProgram_haltedView (s : State) (bytes : List Byte) :
    (s.loadProgram bytes).2.haltedView = s.haltedView := by
  unfold State.loadProgram
  split
  · rfl
  · exact s.setBytes_haltedView 0x200 bytes

theorem State.event_haltedView {s t : State} {e : Event} (hhalted : s.fault.cause ≠ .none) (hreset : e ≠ .op .reset)
    (h : s.event e = .next t) : t.haltedView = s.haltedView := by
  cases e with
  | step =>
    cases (step_of_halted hhalted).symm.trans h
    rfl
  | op o =>
    cases h
    cases o with
    | reset => exact absurd rfl hreset
    | loadProgram bytes => exact s.loadProgram_haltedView bytes
    | keyWrite k b => rfl
    | timerTick => rfl

theorem State.runEvents_of_cons {s t : State} {e : Event} {es : List Event} (h : s.runEvents (e :: es) = .next t) :
    ∃ u, s.event e = .next u ∧ u.runEvents es = .next t := by
  rw [State.runEvents] at h
  split at h
  · next u hu => exact ⟨u, hu, h⟩
  · cases h
  · cases h

theorem State.runEvents_haltedView {s t : State} {es : List Event} (hhalted : s.fault.cause ≠ .none)
    (hreset : Event.op .reset ∉ es) (h : s.runEvents es = .next t) : t.haltedView = s.haltedView := by
  induction es generalizing s with
  | nil =>
    cases h
    rfl
  | cons e es ih =>
    obtain ⟨hne, hrest⟩ := List.ne_and_not_mem_of_not_mem_cons hreset
    obtain ⟨u, hu, hrun⟩ := State.runEvents_of_cons h
    have hview := State.event_haltedView hhalted hne.symm hu
    have hfault : u.fault = s.fault := congrArg Prod.fst hview
    exact (ih (hfault ▸ hhalted) hrest hrun).trans hview

/-- Settles O46, by induction on the history: a halted engine's step is idle and no other operation reaches these parts. -/
theorem faultRecordIsStickyUntilReset : Obligations.FaultRecordIsStickyUntilReset := by
  intro s t es hhalted hreset h
  simpa only [State.haltedView, Prod.mk.injEq] using State.runEvents_haltedView hhalted hreset h

/-! ### ST is not read (45_keypad_timers.md R175) -/

/-- The state with another sound timer. -/
def State.withSound (s : State) (b : Byte) : State := { s with st := b }

theorem State.memReadBytes_withSound (s : State) (b : Byte) (a n : Nat) :
    (s.withSound b).memReadBytes a n = s.memReadBytes a n := by
  induction n generalizing a with
  | zero => rfl
  | succ n ih =>
    rw [State.memReadBytes, State.memReadBytes, ih]
    rfl

theorem State.memWriteBytes_withSound (s : State) (b : Byte) (a : Nat) (bs : List Byte) :
    (s.withSound b).memWriteBytes a bs = (s.memWriteBytes a bs).map (·.withSound b) := by
  induction bs generalizing s a with
  | nil => rfl
  | cons w bs ih =>
    by_cases ha : a ≤ 4095
    · rw [State.memWriteBytes, State.memWriteBytes, State.memWrite_of_le ha, State.memWrite_of_le ha, except_bind_ok,
        except_bind_ok, ← ih]
      rfl
    · have herr : s.memWrite a w = .error ⟨.dataRange, BitVec.ofNat 16 a⟩ := if_pos (by omega)
      have herr' : (s.withSound b).memWrite a w = .error ⟨.dataRange, BitVec.ofNat 16 a⟩ := if_pos (by omega)
      rw [State.memWriteBytes, State.memWriteBytes, herr, herr']
      rfl

theorem State.setBlock_withSound (s : State) (b : Byte) (k : Nat) (bs : List Byte) :
    (s.withSound b).setBlock k bs = (s.setBlock k bs).withSound b := by
  induction bs generalizing s k with
  | nil => rfl
  | cons w bs ih => exact ih (s.setV _ w) (k + 1)

/-- The rule of a store, behind its range check. -/
theorem State.settle_store_withSound (s : State) (b : Byte) (i : Instr) (n : Nat) (bs : List Byte) :
    (s.withSound b).settle i (do (s.withSound b).checkRange n
                                 let t ← (s.withSound b).memWriteBytes s.i.toNat bs
                                 pure t.advance) =
      mapNext (·.withSound b) (s.settle i (do s.checkRange n
                                              let t ← s.memWriteBytes s.i.toNat bs
                                              pure t.advance)) := by
  have hcheck : (s.withSound b).checkRange n = s.checkRange n := rfl
  rw [hcheck, s.memWriteBytes_withSound]
  cases s.checkRange n with
  | error r => rfl
  | ok u =>
    cases s.memWriteBytes s.i.toNat bs with
    | error r => rfl
    | ok t => rfl

/-- The rule of a load or of draw, behind its range check. -/
theorem State.settle_load_withSound {s : State} {b : Byte} {i : Instr} {n : Nat} {f f' : List Byte → State}
    (hf : ∀ bs, f' bs = (f bs).withSound b) :
    (s.withSound b).settle i (do (s.withSound b).checkRange n
                                 let bs ← (s.withSound b).memReadBytes s.i.toNat n
                                 pure (f' bs)) =
      mapNext (·.withSound b) (s.settle i (do s.checkRange n
                                              let bs ← s.memReadBytes s.i.toNat n
                                              pure (f bs))) := by
  have hcheck : (s.withSound b).checkRange n = s.checkRange n := rfl
  rw [hcheck, s.memReadBytes_withSound]
  cases s.checkRange n with
  | error r => rfl
  | ok u =>
    cases s.memReadBytes s.i.toNat n with
    | error r => rfl
    | ok bs => exact congrArg Host.Outcome.next (hf bs)

theorem exec_withSound {i : Instr} (s : State) (b : Byte) (hi : ∀ x, i ≠ .setSound x) :
    exec i (s.withSound b) = mapNext (·.withSound b) (exec i s) := by
  cases hr : raises s i with
  | some r =>
    have hr' : raises (s.withSound b) i = some r := hr
    rw [exec_of_raises hr, exec_of_raises hr']
    rfl
  | none =>
    cases i with
    | setSound x => exact absurd rfl (hi x)
    | call nnn =>
      have hne : s.sp.toNat ≠ 16 := fun h => by simp [raises, h] at hr
      rcases Nat.lt_or_gt_of_ne hne with h | h
      · rw [exec_call_of_lt nnn h, exec_call_of_lt (s := s.withSound b) nnn h]
        rfl
      · rw [exec_call_of_gt nnn h, exec_call_of_gt (s := s.withSound b) nnn h]
        rfl
    | ret =>
      have hpos : 0 < s.sp.toNat := Nat.pos_of_ne_zero fun h => by simp [raises, h] at hr
      by_cases h : s.sp.toNat - 1 < 16
      · rw [exec_ret_of_pos hpos h, exec_ret_of_pos (s := s.withSound b) hpos h]
        rfl
      · have hgt : 16 < s.sp.toNat := by omega
        rw [exec_ret_of_gt hgt, exec_ret_of_gt (s := s.withSound b) hgt]
        rfl
    | draw => exact State.settle_load_withSound fun _ => rfl
    | loadRegisters => exact State.settle_load_withSound fun bs => congrArg State.advance (s.setBlock_withSound b 0 bs)
    | storeBcd => exact s.settle_store_withSound b _ _ _
    | storeRegisters => exact s.settle_store_withSound b _ _ _
    | waitForKey x =>
      have hkey : (s.withSound b).leastKey = s.leastKey := rfl
      change execWaitForKey x (s.withSound b) = mapNext _ (execWaitForKey x s)
      rw [execWaitForKey, execWaitForKey, hkey]
      cases s.leastKey <;> rfl
    | _ => rfl

/-- Whatever ST was, execution answers the same outcome once it is forgotten. -/
theorem exec_eraseSound (i : Instr) (s : State) (b : Byte) :
    mapNext State.eraseSound (exec i (s.withSound b)) = mapNext State.eraseSound (exec i s) := by
  by_cases hi : ∃ x, i = .setSound x
  · obtain ⟨x, rfl⟩ := hi
    rfl
  · rw [exec_withSound s b (not_exists.mp hi)]
    cases exec i s <;> rfl

theorem step_eraseSound (s : State) (b : Byte) :
    mapNext State.eraseSound (step (s.withSound b)) = mapNext State.eraseSound (step s) := by
  rcases s.cycle_cases with hc | ⟨hc, hp⟩ | ⟨hready, hd⟩ | ⟨i, hi⟩
  · rw [step_of_halted hc, step_of_halted (s := s.withSound b) hc]
    rfl
  · rw [step_of_fetch_gt hc hp, step_of_fetch_gt (s := s.withSound b) hc hp]
    rfl
  · rw [step_of_unknown hready hd, step_of_unknown (s := s.withSound b) hready hd]
    rfl
  · rw [step_of_executes hi, step_of_executes (s := s.withSound b) hi]
    exact exec_eraseSound i s b

theorem exists_next_of_mapNext {f : State → State} {o : Host.Outcome State Fault Refusal} {u : State}
    (h : mapNext f o = .next u) : ∃ t, o = .next t := by
  cases o with
  | next t => exact ⟨t, rfl⟩
  | fault r => cases h
  | refused r => cases h

theorem eq_fault_of_mapNext {f : State → State} {o : Host.Outcome State Fault Refusal} {r : Fault}
    (h : mapNext f o = .fault r) : o = .fault r := by
  cases o with
  | next t => cases h
  | fault r' => exact h
  | refused r' => cases h

theorem State.report_withSound (s : State) (b : Byte) : (s.withSound b).report = s.report := by
  rcases s.cycle_cases with hc | ⟨hc, hp⟩ | ⟨hready, hd⟩ | ⟨i, hi⟩
  · rw [State.report_of_halted hc, State.report_of_halted (s := s.withSound b) hc]
  · rw [State.report_of_fetch_gt hc hp, State.report_of_fetch_gt (s := s.withSound b) hc hp]
  · exact (State.report_of_unknown (s := s.withSound b) hready hd).trans (State.report_of_unknown hready hd).symm
  · have hi' : (s.withSound b).Executes i := hi
    have herase := exec_eraseSound i s b
    rcases exec_cases i s with ⟨r, hr, -⟩ | ⟨hr, t, ht, -⟩ | ⟨-, -, hstop⟩
    · rw [State.report_of_raises hi hr, State.report_of_raises hi' hr]
    · rw [ht] at herase
      obtain ⟨t', ht'⟩ := exists_next_of_mapNext herase
      exact (State.report_of_completes hi' ht' hr).trans (State.report_of_completes hi ht hr).symm
    · rw [hstop] at herase
      rw [State.report_of_exec_fault hi hstop, State.report_of_exec_fault hi' (eq_fault_of_mapNext herase)]

/-- Settles O58: every rule commutes with a change of ST, but set-sound, which overwrites it. -/
theorem soundTimerDoesNotInfluenceExecution : Obligations.SoundTimerDoesNotInfluenceExecution :=
  fun s b => ⟨step_eraseSound s b, s.report_withSound b⟩

end Sys2Proof.Machine

/-! PROOFS. The flag writers and random (42_alu.md R126 to R133): the result and the flag in the order of R133, then the
generic advance. -/

namespace Sys2Proof.Machine

/-! ### The arms of exec -/

theorem exec_addReg (x y : Reg) (s : State) : exec (.addReg x y) s =
    .next (s.resultThenFlag x (add8 (s.getV x) (s.getV y)) (carryFlag (s.getV x) (s.getV y))).advance := rfl

theorem exec_subReg (x y : Reg) (s : State) : exec (.subReg x y) s =
    .next (s.flagThenResult x (subFlag (s.getV x) (s.getV y)) (sub8 (s.getV x) (s.getV y))).advance := rfl

theorem exec_subnReg (x y : Reg) (s : State) : exec (.subnReg x y) s =
    .next (s.flagThenResult x (subnFlag (s.getV x) (s.getV y)) (sub8 (s.getV y) (s.getV x))).advance := rfl

theorem exec_shiftRight (x y : Reg) (s : State) : exec (.shiftRight x y) s =
    .next (s.flagThenResult x (lowBitFlag (s.getV x)) (shr8 (s.getV x))).advance := rfl

theorem exec_shiftLeft (x y : Reg) (s : State) : exec (.shiftLeft x y) s =
    .next (s.flagThenResult x (highBitFlag (s.getV x)) (shl8 (s.getV x))).advance := rfl

theorem exec_random (x : Reg) (nn : Byte) (s : State) :
    exec (.random x nn) s = .next (randomWith (Config.rnd s.rndDraws) x nn s) := rfl

/-! ### Frames -/

theorem OnlyChanges.trans {ps qs : List Part} {s t u : State} (h : OnlyChanges ps s t) (h' : OnlyChanges qs t u) :
    OnlyChanges (ps ++ qs) s u :=
  (Frame.trans h h').mono fun _ => List.mem_append.mpr

theorem OnlyChanges.mono {ps qs : List Part} {s t : State} (h : OnlyChanges ps s t) (hsub : ps ⊆ qs) :
    OnlyChanges qs s t :=
  Frame.mono h fun _ hp => hsub hp

theorem State.resultThenFlag_onlyChanges (s : State) (x : Reg) (result flag : Byte) :
    OnlyChanges [.reg x, .reg vf] s (s.resultThenFlag x result flag) :=
  (s.setV_onlyChanges x result).trans (State.setV_onlyChanges _ vf flag)

theorem State.flagThenResult_onlyChanges (s : State) (x : Reg) (flag result : Byte) :
    OnlyChanges [.reg x, .reg vf] s (s.flagThenResult x flag result) :=
  ((s.setV_onlyChanges vf flag).trans (State.setV_onlyChanges _ x result)).mono (by simp)

/-- An instruction whose meaning is the flag, then the result, then the advance. -/
theorem exec_writes_flag_then_result {i : Instr} {s : State} {x : Reg} {flag result : Byte}
    (hexec : exec i s = .next (s.flagThenResult x flag result).advance) :
    ∃ t, exec i s = .next t ∧ t.getV x = result ∧ (x ≠ vf → t.getV vf = flag) ∧ t.pc = s.pc + 2 ∧
      OnlyChanges [.reg x, .reg vf, .pc] s t :=
  ⟨_, hexec, s.flagThenResult_getV x flag result, s.flagThenResult_getV_vf flag result, rfl,
    (s.flagThenResult_onlyChanges x flag result).advance⟩

/-! ### The flags and results over the naturals -/

theorem flagByte_decide (p : Prop) [Decidable p] : flagByte (decide p) = if p then 1 else 0 := by
  simp [flagByte]

theorem flagByte_toNat (p : Bool) : (flagByte p).toNat = p.toNat := by
  cases p <;> rfl

theorem flagByte_getLsbD_toNat (a : Byte) (k : Nat) : (flagByte (a.getLsbD k)).toNat = a.toNat / 2 ^ k % 2 := by
  rw [flagByte_toNat, BitVec.getLsbD, Nat.toNat_testBit]

theorem lowBitFlag_toNat (a : Byte) : (lowBitFlag a).toNat = a.toNat % 2 := by
  rw [lowBitFlag, flagByte_getLsbD_toNat, Nat.pow_zero, Nat.div_one]

theorem highBitFlag_toNat (a : Byte) : (highBitFlag a).toNat = a.toNat / 128 := by
  have := a.isLt
  rw [highBitFlag, flagByte_getLsbD_toNat]
  omega

theorem shr8_toNat (a : Byte) : (shr8 a).toNat = a.toNat / 2 := by
  have := a.isLt
  rw [shr8, BitVec.toNat_ofNat]
  omega

theorem shl8_toNat (a : Byte) : (shl8 a).toNat = 2 * a.toNat % 256 := BitVec.toNat_ofNat _ _

/-- Settles O14: the carry is written last, so it stands also when X is 0xF. -/
theorem addRegistersSetsCarry : Obligations.AddRegistersSetsCarry := by
  intro x y s
  refine ⟨_, exec_addReg x y s, fun hx => ?sum, ?carry, State.advance_pc _,
    (s.resultThenFlag_onlyChanges x _ _).advance⟩
  case sum => rw [State.advance_getV, s.resultThenFlag_getV_of_ne _ _ hx, add8_toNat]
  case carry => rw [State.advance_getV, s.resultThenFlag_getV_vf, carryFlag, flagByte_decide]

/-- Settles O15: the difference is written last, so it stands also when X is 0xF. -/
theorem subtractSetsStrictFlag : Obligations.SubtractSetsStrictFlag := by
  intro x y s
  obtain ⟨t, hexec, hresult, hflag, hpc, hframe⟩ := exec_writes_flag_then_result (exec_subReg x y s)
  exact ⟨t, hexec, by rw [hresult, sub8_toNat], fun hx => by rw [hflag hx, subFlag, flagByte_decide], hpc, hframe⟩

/-- Settles O16: as sub, with the operands exchanged and the flag inclusive. -/
theorem reverseSubtractSetsInclusiveFlag : Obligations.ReverseSubtractSetsInclusiveFlag := by
  intro x y s
  obtain ⟨t, hexec, hresult, hflag, hpc, hframe⟩ := exec_writes_flag_then_result (exec_subnReg x y s)
  exact ⟨t, hexec, by rw [hresult, sub8_toNat], fun hx => by rw [hflag hx, subnFlag, flagByte_decide], hpc, hframe⟩

/-- Settles O17: the flag is the bit shifted out, the result half or double, and Y is not read. -/
theorem shiftsMoveOneBitToFlag : Obligations.ShiftsMoveOneBitToFlag := by
  intro x y s
  refine ⟨?right, ?left⟩
  case right =>
    obtain ⟨t, hexec, hresult, hflag, hpc, hframe⟩ := exec_writes_flag_then_result (exec_shiftRight x y s)
    exact ⟨t, hexec, by rw [hresult, shr8_toNat], fun hx => by rw [hflag hx, lowBitFlag_toNat], hpc, hframe⟩
  case left =>
    obtain ⟨t, hexec, hresult, hflag, hpc, hframe⟩ := exec_writes_flag_then_result (exec_shiftLeft x y s)
    exact ⟨t, hexec, by rw [hresult, shl8_toNat], fun hx => by rw [hflag hx, highBitFlag_toNat], hpc, hframe⟩

/-! ### The draw of random -/

theorem State.setDraws_onlyChanges (s : State) (n : Nat) : OnlyChanges [.draws] s { s with rndDraws := n } := by
  intro p hp
  cases p with
  | draws => exact absurd (List.mem_singleton_self _) hp
  | _ => rfl

theorem and_and_not (a b : Byte) : a &&& b &&& ~~~b = 0 := by
  rw [BitVec.and_assoc, BitVec.and_not_self]
  exact BitVec.and_zero

theorem randomWith_onlyChanges (rnd : Byte) (x : Reg) (nn : Byte) (s : State) :
    OnlyChanges [.reg x, .draws, .pc] s (randomWith rnd x nn s) :=
  ((s.setV_onlyChanges x (rnd &&& nn)).trans (State.setDraws_onlyChanges _ (s.rndDraws + 1))).advance

/-- Settles O18: the draw at the counter is masked, and the counter goes on. -/
theorem randomIsMaskedDraw : Obligations.RandomIsMaskedDraw := by
  intro x nn s
  have hreg : (randomWith (Config.rnd s.rndDraws) x nn s).getV x = Config.rnd s.rndDraws &&& nn := s.setV_getV_self x _
  exact ⟨_, exec_random x nn s, hreg, by rw [hreg, and_and_not], rfl, rfl, randomWith_onlyChanges _ x nn s⟩

end Sys2Proof.Machine

/-! PROOFS. Index register, jump with offset, call and return (43_index_memory.md, 41_control_flow.md). -/

namespace Sys2Proof.Machine

theorem exec_addToIndex (x : Reg) (s : State) :
    exec (.addToIndex x) s = .next ({ s with i := s.i + s.zextV x } : State).advance := rfl

theorem exec_loadFontAddress (x : Reg) (s : State) :
    exec (.loadFontAddress x) s = .next ({ s with i := fontAddress s.cfg (s.lowNibble x) } : State).advance := rfl

theorem exec_jumpOffset (nnn : Addr12) (s : State) :
    exec (.jumpOffset nnn) s = .next { s with pc := zextAddr nnn + s.zextV v0 } := rfl

/-- Settles O21: I has 16 bits, and the register is extended with zeros. -/
theorem addToIndexWrapsAt65536 : Obligations.AddToIndexWrapsAt65536 := by
  intro x s
  obtain ⟨t, hexec, hindex, hpc, hframe⟩ := exec_writes_index (exec_addToIndex x s)
  exact ⟨t, hexec, by rw [hindex, BitVec.toNat_add, State.zextV_toNat], hpc, hframe⟩

theorem fontAddress_toNat (c : Config) (d : Fin 16) : (fontAddress c d).toNat = c.fontBase.val + 5 * d.val := by
  have := c.fontBase.isLt
  have := d.isLt
  rw [fontAddress, BitVec.toNat_ofNat]
  omega

/-- Settles O22: the address fits I for every FONT_BASE the parameters allow. -/
theorem loadFontAddressComputesGlyph : Obligations.LoadFontAddressComputesGlyph := by
  intro x s
  obtain ⟨t, hexec, hindex, hpc, hframe⟩ := exec_writes_index (exec_loadFontAddress x s)
  exact ⟨t, hexec, by rw [hindex, fontAddress_toNat, State.lowNibble], hpc, hframe⟩

/-- Settles O23: I is the address of row 0 of the glyph, row r of which is font byte 5 d + r. -/
theorem loadedAddressHoldsTheGlyph : Obligations.LoadedAddressHoldsTheGlyph := by
  intro x s t hfont h d r hd
  cases (exec_loadFontAddress x s).symm.trans h
  have hdigit : s.lowNibble x = d := Fin.ext hd
  have hrow := hfont ⟨5 * d.val + r.val, by omega⟩
  rw [State.advance_i, hdigit, fontAddress_toNat, Nat.add_assoc]
  exact hrow

/-- Settles O25: the sum of a 12-bit address and a byte fits PC. -/
theorem jumpOffsetAddsV0 : Obligations.JumpOffsetAddsV0 := by
  intro nnn s
  refine ⟨_, exec_jumpOffset nnn s, ?_, s.setPc_onlyChanges _⟩
  have := nnn.isLt
  have := (s.getV v0).isLt
  rw [BitVec.toNat_add, zextAddr_toNat, State.zextV_toNat]
  omega

/-! ### An instruction that raises -/

theorem exec_raises {i : Instr} {s : State} {r : Raise} (h : raises s i = some r) :
    ∃ t, exec i s = .next t ∧ t.fault = ⟨r.cause, s.pc, encode i, r.addr⟩ ∧ OnlyChanges [.fault] s t :=
  ⟨_, exec_of_raises h, s.raise_fault r (encode i), s.raise_onlyChanges r (encode i)⟩

/-- Settles O38: what raises takes the fault from the state before it. -/
theorem instructionFaultsArePrecise : Obligations.InstructionFaultsArePrecise := fun _ _ _ => exec_raises

/-! ### The stack -/

theorem State.setSp_onlyChanges (s : State) (b : Byte) : OnlyChanges [.sp] s { s with sp := b } := by
  intro p hp
  cases p with
  | sp => exact absurd (List.mem_singleton_self _) hp
  | _ => rfl

theorem State.setEntry_onlyChanges (s : State) (j : Fin 16) (w : Word) :
    OnlyChanges [.stackEntry j] s (s.setEntry j w) := by
  intro p hp
  cases p with
  | stackEntry k =>
    have hne : j ≠ k := fun h => hp (by simp [h])
    exact (s.setEntry_entry j k w).trans (if_neg hne)
  | _ => rfl

theorem State.push_onlyChanges (s : State) (w : Word) (h : s.sp.toNat < 16) :
    OnlyChanges [.stackEntry ⟨s.sp.toNat, h⟩, .sp] s (s.push w h) :=
  (s.setEntry_onlyChanges _ w).trans (State.setSp_onlyChanges _ (s.sp + 1))

theorem State.push_entry (s : State) (w : Word) (h : s.sp.toNat < 16) :
    (s.push w h).entry ⟨s.sp.toNat, h⟩ = w :=
  (s.setEntry_entry _ _ w).trans (if_pos rfl)

/-- Settles O26: the push where the entry exists, the fault with 16 entries in use. -/
theorem callPushesOrOverflows : Obligations.CallPushesOrOverflows := by
  intro nnn s
  refine ⟨fun h => ?push, fun h => ?overflow⟩
  case push =>
    refine ⟨_, exec_call_of_lt nnn h, s.push_entry _ h, ?_, zextAddr_toNat nnn,
      (s.push_onlyChanges _ h).trans (State.setPc_onlyChanges _ _)⟩
    change (s.sp + 1).toNat = _
    bv_omega
  case overflow =>
    obtain ⟨t, hexec, hfault, hframe⟩ := exec_raises (i := .call nnn) (if_pos h)
    exact ⟨t, hexec, congrArg FaultRecord.cause hfault, hframe⟩

/-- Settles O27: the pop where there is an entry, the fault with none. -/
theorem returnPopsOrUnderflows : Obligations.ReturnPopsOrUnderflows := by
  intro s
  refine ⟨fun j h => ?pop, fun h => ?underflow⟩
  case pop =>
    have hlt : s.sp.toNat - 1 < 16 := by omega
    have hj : (⟨s.sp.toNat - 1, hlt⟩ : Fin 16) = j := Fin.ext (by simp [h])
    refine ⟨_, exec_ret_of_pos (by omega) hlt, by rw [hj], ?_,
      (s.setSp_onlyChanges (s.sp - 1)).trans (State.setPc_onlyChanges _ _)⟩
    change (s.sp - 1).toNat = _
    bv_omega
  case underflow =>
    obtain ⟨t, hexec, hfault, hframe⟩ := exec_raises (i := .ret) (if_pos h)
    exact ⟨t, hexec, congrArg FaultRecord.cause hfault, hframe⟩

/-- Settles O47: the entry and SP that the return reads are those the call left. -/
theorem callThenReturnComesBack : Obligations.CallThenReturnComesBack := by
  intro nnn s t h hcall
  obtain ⟨t', ht', hentry, htsp, -, hpushed⟩ := (callPushesOrOverflows nnn s).1 h
  cases ht'.symm.trans hcall
  obtain ⟨u, hu, hpc, husp, hpopped⟩ := (returnPopsOrUnderflows t).1 ⟨s.sp.toNat, h⟩ htsp
  have hsp : u.sp = s.sp := BitVec.eq_of_toNat_eq husp
  refine ⟨u, hu, hpc.trans hentry, hsp, fun p hp => ?_⟩
  by_cases hpart : p = .sp
  · rw [hpart]
    exact hsp
  · refine OnlyChanges.trans hpushed hpopped p ?_
    simp only [List.mem_cons, List.not_mem_nil, or_false, not_or] at hp
    simp [hp, hpart]

end Sys2Proof.Machine

/-! PROOFS. The keypad instructions (45_keypad_timers.md R170, R171, R173). -/

namespace Sys2Proof.Machine

theorem exec_skipIfKeyPressed (x : Reg) (s : State) :
    exec (.skipIfKeyPressed x) s = .next (s.skipIf (s.keyAt (s.lowNibble x))) := rfl

theorem exec_skipIfKeyNotPressed (x : Reg) (s : State) :
    exec (.skipIfKeyNotPressed x) s = .next (s.skipIf (!s.keyAt (s.lowNibble x))) := rfl

theorem exec_waitForKey_of_some {s : State} {k : Nat} (x : Reg) (h : s.leastKey = some k) :
    exec (.waitForKey x) s = .next (s.setV x (BitVec.ofNat 8 k)).advance := by
  change execWaitForKey x s = _
  rw [execWaitForKey, h]

/-- Settles O30: the key that Vx names is the one with the number Vx mod 16. -/
theorem keySkipsTestTheKey : Obligations.KeySkipsTestTheKey := by
  intro x s k hk
  have hkey : s.lowNibble x = k := Fin.ext hk
  refine ⟨?pressed, ?notPressed⟩
  case pressed => exact exec_skips_if (exec_skipIfKeyPressed x s) (by rw [hkey])
  case notPressed =>
    exact exec_skips_unless (exec_skipIfKeyNotPressed x s) (by rw [hkey, Bool.not_eq_true', Bool.not_eq_true])

/-- Settles O31: the least pressed key is written like any register, and without one the step waits. -/
theorem waitForKeyTakesTheLeastKey : Obligations.WaitForKeyTakesTheLeastKey := by
  intro x s
  refine ⟨fun k hk hleast => ?pressed, exec_waitForKey_of_none x⟩
  case pressed =>
    have hkey : s.leastKey = some k.val := State.leastKey_eq_some.mpr ⟨k.isLt, hk, hleast⟩
    obtain ⟨t, hexec, hreg, hpc, hframe⟩ := exec_writes_reg (exec_waitForKey_of_some x hkey)
    refine ⟨t, hexec, ?_, hpc, hframe⟩
    rw [hreg, BitVec.toNat_ofNat]
    omega

end Sys2Proof.Machine

/-! PROOFS. Reset, the tick, load_program and the memory they see (49_host_interface.md, 10_state.md R24). -/

namespace Sys2Proof.Machine

/-! ### Reset -/

theorem Memory.unlisted_font (c : Config) (k : Fin 80) :
    Memory.unlisted c (c.fontBase.val + k.val) = c.fontData[k.val] := by
  rw [Memory.unlisted, dif_pos ⟨by omega, by omega⟩]
  simp only [Nat.add_sub_cancel_left]

theorem Memory.unlisted_of_outside {c : Config} {a : Nat} (h : a < c.fontBase.val ∨ c.fontBase.val + 80 ≤ a) :
    Memory.unlisted c a = 0 := dif_neg (by omega)

/-- Settles O6: reset lists no byte, so memory reads as its reset contents. -/
theorem resetLeavesTheResetValues : Obligations.ResetLeavesTheResetValues := by
  refine ⟨fun s => ⟨rfl, rfl, rfl, rfl, rfl, fun r => ?reg, fun j => ?entry, fun x y => ?pixel, s.resetOp_keyAt, rfl, rfl,
    rfl, Memory.unlisted_font s.cfg, fun a ha => Memory.unlisted_of_outside ha⟩, rfl, rfl⟩
  case reg => exact Vector.getElem_replicate _
  case entry => exact Vector.getElem_replicate _
  case pixel => exact Framebuffer.get_clear x y

/-! ### timer_tick -/

theorem tickDown_toNat (t : Byte) : (tickDown t).toNat = t.toNat - 1 := by
  rw [tickDown]
  split <;> bv_omega

/-- Settles O52: each timer is counted down by the same rule. -/
theorem timerTickCountsDownToZero : Obligations.TimerTickCountsDownToZero :=
  fun s => ⟨tickDown_toNat s.dt, tickDown_toNat s.st,
    (s.setDt_onlyChanges (tickDown s.dt)).trans (State.setSt_onlyChanges _ (tickDown s.st))⟩

/-! ### load_program -/

theorem bytesFrom_at {f : Nat → Byte} {a k : Nat} {bs : List Byte} (h : k < bs.length) :
    bytesFrom f a bs (a + k) = bs[k] := by
  rw [bytesFrom, dif_pos ⟨by omega, by omega⟩]
  simp only [Nat.add_sub_cancel_left]

theorem bytesFrom_outside {f : Nat → Byte} {a a' : Nat} {bs : List Byte} (h : ∀ k, k < bs.length → a' ≠ a + k) :
    bytesFrom f a bs a' = f a' := by
  refine dif_neg fun hin => h (a' - a) ?_ ?_ <;> omega

/-- Settles O54: load_program writes its bytes one after the other from 0x200. -/
theorem loadProgramCopiesTheBytes : Obligations.LoadProgramCopiesTheBytes := by
  intro s bytes hwf hlen
  have hmem := State.setBytes_spec (s := s) (a := 0x200) (bs := bytes) (by omega) hwf
  rw [s.loadProgram_of_length_le hlen]
  refine ⟨rfl, fun k hk => (hmem.bytes _).trans (bytesFrom_at hk), ?frame⟩
  case frame =>
    intro p hp
    cases p with
    | byte a => exact (hmem.bytes a).trans (bytesFrom_outside fun k hk ha => hp ⟨k, hk, by rw [ha]⟩)
    | _ =>
      change Part.Same s (s.setBytes 0x200 bytes) _
      rw [hmem.rest]
      rfl

/-! ### Canonical memory (log 17) -/

theorem Memory.read_of_lt {c : Config} {m : Memory} {a : Nat} (h : ∀ e ∈ m, a < e.1) :
    Memory.read c m a = Memory.unlisted c a := by
  rw [Memory.read, Memory.lookup_of_lt h, Option.getD_none]

/-- A list with the contents of a canonical one starts no later than it. -/
theorem Memory.head_le {c : Config} {m m' : Memory} {a : Nat} {b : Byte} (hm : Memory.wf c ((a, b) :: m) = true)
    (hm' : Memory.wf c m' = true) (h : Memory.read c ((a, b) :: m) a = Memory.read c m' a) :
    ∃ k w m₁, m' = (k, w) :: m₁ ∧ k ≤ a := by
  obtain ⟨-, hb, -, -⟩ := Memory.wf_cons.mp hm
  rw [Memory.read_cons, if_pos rfl] at h
  cases m' with
  | nil => exact absurd h hb
  | cons e m₁ =>
    obtain ⟨-, -, hlt, -⟩ := Memory.wf_cons.mp hm'
    refine ⟨e.1, e.2, m₁, rfl, ?_⟩
    by_contra hgt
    rw [Memory.read_of_lt (Memory.lt_all_cons (by omega) hlt)] at h
    exact hb h

theorem Memory.eq_of_read_eq {c : Config} {m m' : Memory} (hm : Memory.wf c m = true) (hm' : Memory.wf c m' = true)
    (h : ∀ a, a < 4096 → Memory.read c m a = Memory.read c m' a) : m = m' := by
  induction m generalizing m' with
  | nil =>
    cases m' with
    | nil => rfl
    | cons e m' =>
      obtain ⟨k, w, m₁, hnil, -⟩ := Memory.head_le hm' hm (h e.1 (Memory.wf_cons.mp hm').1).symm
      cases hnil
  | cons e m ih =>
    obtain ⟨ha, -, hlt, hwf⟩ := Memory.wf_cons.mp hm
    obtain ⟨k, w, m₁, rfl, hle⟩ := Memory.head_le hm hm' (h e.1 ha)
    obtain ⟨hk, -, hlt', hwf'⟩ := Memory.wf_cons.mp hm'
    obtain ⟨k', w', m₂, heq, hle'⟩ := Memory.head_le hm' hm (h k hk).symm
    cases heq
    obtain rfl : k = k' := Nat.le_antisymm hle hle'
    have hhead := h k ha
    rw [Memory.read_cons, Memory.read_cons, if_pos rfl, if_pos rfl] at hhead
    have htail : m = m₁ := by
      refine ih hwf hwf' fun a ha' => ?_
      by_cases hak : a = k
      · rw [hak, Memory.read_of_lt hlt, Memory.read_of_lt hlt']
      · have hread := h a ha'
        rwa [Memory.read_cons, Memory.read_cons, if_neg hak, if_neg hak] at hread
    rw [hhead, htail]

/-- Settles O57, by induction on the list: two canonical lists with the same contents have the same first entry. -/
theorem canonicalMemoryIsItsContents : Obligations.CanonicalMemoryIsItsContents :=
  fun _ _ _ => Memory.eq_of_read_eq

end Sys2Proof.Machine

/-! PROOFS. The instructions that access memory from I (43_index_memory.md R143 to R145). -/

namespace Sys2Proof.Machine

/-! ### In range and out of range (20_memory.md R46) -/

theorem raises_of_range {i : Instr} {s : State} (hpos : 0 < accessLength i) (h : 4096 < s.i.toNat + accessLength i) :
    raises s i = some ⟨.dataRange, BitVec.ofNat 16 (max s.i.toNat 4096)⟩ := by
  have hrange : 0 < accessLength i ∧ s.i.toNat + accessLength i - 1 > 4095 := ⟨hpos, by omega⟩
  cases i with
  | call | ret => exact absurd hpos (Nat.lt_irrefl 0)
  | _ => exact if_pos hrange

theorem exec_out_of_range {i : Instr} {s : State} (hpos : 0 < accessLength i) (h : 4096 < s.i.toNat + accessLength i) :
    ∃ t, exec i s = .next t ∧ t.fault.cause = .dataRange ∧ t.fault.addr.toNat = max s.i.toNat 4096 ∧
      OnlyChanges [.fault] s t := by
  obtain ⟨t, hexec, hfault, hframe⟩ := exec_raises (raises_of_range hpos h)
  refine ⟨t, hexec, ?_, ?_, hframe⟩
  · rw [hfault]
  · rw [hfault]
    exact faultAddress_toNat s

/-- An instruction whose meaning is to store the bytes of a list from I, in range. -/
theorem exec_stores {i : Instr} {s : State} {bs : List Byte} {n : Nat}
    (hexec : exec i s = s.settle i (do s.checkRange n; let t ← s.memWriteBytes s.i.toNat bs; pure t.advance))
    (hn : n = bs.length) (hw : s.MemoryWf) (h : s.i.toNat + n ≤ 4096) :
    ∃ t, exec i s = .next t ∧ (∀ k (hk : k < bs.length), t.byteAt (s.i.toNat + k) = bs[k]) ∧ t.pc = s.pc + 2 ∧
      Frame (fun p => p = .pc ∨ ∃ k, k < n ∧ p = .byte (s.i.toNat + k)) s t := by
  obtain ⟨t, ht, hmem⟩ := State.settle_store (i := i) hn hw h
  refine ⟨t.advance, hexec.trans ht, fun k hk => ?bytes, ?pc, hmem.frame _ (fun a ha => ?other) (.inl rfl)⟩
  case bytes => exact (hmem.bytes _).trans (bytesFrom_at hk)
  case pc =>
    rw [State.advance_pc, hmem.rest]
  case other => exact bytesFrom_outside fun k hk hak => ha (.inr ⟨k, hn ▸ hk, by rw [hak]⟩)

theorem exec_storeRegisters_of_le {x : Reg} {s : State} (hw : s.MemoryWf) (h : s.i.toNat + x.toNat ≤ 4095) :
    ∃ t, exec (.storeRegisters x) s = .next t ∧ (∀ r : Reg, r ≤ x → t.byteAt (s.i.toNat + r.toNat) = s.getV r) ∧
      t.pc = s.pc + 2 ∧ Frame (fun p => p = .pc ∨ ∃ k, k ≤ x.toNat ∧ p = .byte (s.i.toNat + k)) s t := by
  obtain ⟨t, hexec, hbytes, hpc, hframe⟩ :=
    exec_stores (i := .storeRegisters x) rfl (s.registerBlock_length x).symm hw (by omega)
  refine ⟨t, hexec, fun r hr => ?block, hpc, hframe.mono fun p hp => ?parts⟩
  case block =>
    have hlt : r.toNat < (s.registerBlock x).length := by
      rw [State.registerBlock_length]
      exact Nat.lt_succ_of_le hr
    rw [hbytes r.toNat hlt, State.registerBlock_getElem, BitVec.ofNat_toNat, BitVec.setWidth_eq]
  case parts => exact hp.imp_right fun ⟨k, hk, hkp⟩ => ⟨k, Nat.le_of_lt_succ hk, hkp⟩

/-- Settles O33: the block of registers is stored, or the whole range is refused. -/
theorem storeRegistersWritesTheBlock : Obligations.StoreRegistersWritesTheBlock := by
  intro x s hw
  refine ⟨exec_storeRegisters_of_le hw, fun h => exec_out_of_range (Nat.succ_pos x.toNat) ?_⟩
  change 4096 < s.i.toNat + (x.toNat + 1)
  omega

theorem bcdDigit_toNat {n : Nat} (h : n < 256) : (BitVec.ofNat 8 n).toNat = n := Nat.mod_eq_of_lt h

/-- Settles O32: the three digits are stored, each of which fits a byte, or the whole range is refused. -/
theorem storeBcdWritesThreeDigits : Obligations.StoreBcdWritesThreeDigits := by
  intro x s hw
  refine ⟨fun h => ?stored, fun h => exec_out_of_range (Nat.succ_pos 2) ?range⟩
  case stored =>
    have hv := (s.getV x).isLt
    obtain ⟨t, hexec, hbytes, hpc, hframe⟩ :=
      exec_stores (i := .storeBcd x) (bs := bcdDigits (s.getV x)) (n := 3) rfl rfl hw (by omega)
    refine ⟨t, hexec, ?hundreds, ?tens, ?ones, hpc, hframe.mono fun p hp => ?parts⟩
    case hundreds => exact (congrArg BitVec.toNat (hbytes 0 (show 0 < 3 by decide))).trans (bcdDigit_toNat (by omega))
    case tens => exact (congrArg BitVec.toNat (hbytes 1 (show 1 < 3 by decide))).trans (bcdDigit_toNat (by omega))
    case ones => exact (congrArg BitVec.toNat (hbytes 2 (show 2 < 3 by decide))).trans (bcdDigit_toNat (by omega))
    case parts =>
      obtain rfl | ⟨k, hk, rfl⟩ := hp
      · simp
      · interval_cases k <;> simp
  case range =>
    change 4096 < s.i.toNat + 3
    omega

/-! ### The load -/

theorem State.setBlock_frame {s : State} {x : Reg} :
    Frame (fun p => ∃ r : Reg, r ≤ x ∧ p = .reg r) s
      (s.setBlock 0 ((List.range (x.toNat + 1)).map fun k => s.byteAt (s.i.toNat + k))) := by
  intro p hp
  cases p with
  | reg r => exact (State.setBlock_memory_getV r).trans (if_neg fun hr => hp ⟨r, hr, rfl⟩)
  | _ =>
    rw [State.setBlock_rest]
    rfl

theorem exec_loadRegisters_of_le {x : Reg} {s : State} (h : s.i.toNat + x.toNat ≤ 4095) :
    ∃ t, exec (.loadRegisters x) s = .next t ∧ (∀ r : Reg, r ≤ x → t.getV r = s.byteAt (s.i.toNat + r.toNat)) ∧
      t.pc = s.pc + 2 ∧ Frame (fun p => p = .pc ∨ ∃ r : Reg, r ≤ x ∧ p = .reg r) s t := by
  refine ⟨_, execLoadRegisters_of_le h, fun r hr => (State.setBlock_memory_getV r).trans (if_pos hr), ?pc,
    (State.setBlock_frame.trans (State.advance_onlyChanges _)).mono fun p hp => ?parts⟩
  case pc => rw [State.advance_pc, State.setBlock_rest]
  case parts => exact hp.symm.imp_left List.mem_singleton.mp

/-- Settles O34: the block is loaded, or the whole range is refused before a register is written. -/
theorem loadRegistersReadsTheBlock : Obligations.LoadRegistersReadsTheBlock := by
  intro x s
  refine ⟨exec_loadRegisters_of_le, fun h => exec_out_of_range (Nat.succ_pos x.toNat) ?_⟩
  change 4096 < s.i.toNat + (x.toNat + 1)
  omega

/-! ### What was stored is loaded and fetched -/

/-- Settles O48: the store leaves I alone, so the load reads the bytes it wrote. -/
theorem storeThenLoadRestoresRegisters : Obligations.StoreThenLoadRestoresRegisters := by
  intro x s t w hw h hstore
  obtain ⟨t', ht', hbytes, -, hframe⟩ := exec_storeRegisters_of_le hw h
  cases ht'.symm.trans hstore
  have hi : t.i = s.i := hframe .index (by simp)
  obtain ⟨u, hu, hregs, -, -⟩ := exec_loadRegisters_of_le (s := { t with v := w }) (x := x) (hi ▸ h)
  refine ⟨u, hu, fun r hr => (hregs r hr).trans ?_⟩
  change t.byteAt (t.i.toNat + r.toNat) = s.getV r
  rw [hi, hbytes r hr]

/-- Settles O49: the fetch reads the two bytes at the new PC, which the store wrote. -/
theorem storedBytesAreFetchedNext : Obligations.StoredBytesAreFetchedNext := by
  intro x r s t hw h hr haddr hstore
  obtain ⟨t', ht', hbytes, hpc, -⟩ := exec_storeRegisters_of_le hw h
  cases ht'.symm.trans hstore
  have hx := x.isLt
  have hpcNat : t.pc.toNat = s.i.toNat + r.toNat := by
    rw [hpc]
    bv_omega
  have hsucc : (r + 1).toNat = r.toNat + 1 := by bv_omega
  have hfirst : t.byteAt t.pc.toNat = s.getV r := by
    rw [hpcNat]
    exact hbytes r (by bv_omega)
  have hsecond : t.byteAt (t.pc.toNat + 1) = s.getV (r + 1) := by
    rw [hpcNat, Nat.add_assoc, ← hsucc]
    exact hbytes (r + 1) (by bv_omega)
  rw [State.fetch_of_le (by omega), State.opAtPc, hfirst, hsecond]

end Sys2Proof.Machine

/-! PROOFS. Draw (44_display.md R161): the canvas flips the pixels that the sprite reaches, and its collision goes to VF. -/

namespace Sys2Proof.Machine

theorem flagByte_eq_one {p : Bool} : flagByte p = 1 ↔ p = true := by
  cases p <;> decide

theorem flagByte_zero_or_one (p : Bool) : flagByte p = 0 ∨ flagByte p = 1 := by
  cases p <;> decide

/-- Flipping changes exactly the flipped pixels. -/
theorem Canvas.Flips.ne_iff {cv cv' : Canvas} {d : Fin 64 → Fin 32 → Prop} (h : cv.Flips cv' d) (x : Fin 64) (y : Fin 32) :
    cv'.fb.get x y ≠ cv.fb.get x y ↔ d x y := by
  by_cases hd : d x y
  · simp [h.on x y hd, hd]
  · simp [h.off x y hd, hd]

/-- Settles O36: draw puts the canvas into FB and its collision into VF. -/
theorem drawXorsClippedSprite : Obligations.DrawXorsClippedSprite := by
  intro x y n s h
  have hflips := s.drawn_flips x y n
  have hvf : ((({ s with fb := (s.drawn x y n).fb } : State).setV vf (flagByte (s.drawn x y n).hit)).advance).getV vf =
      flagByte (s.drawn x y n).hit := State.setV_getV_self _ vf _
  refine ⟨_, execDraw_of_le h, hflips.ne_iff, ?flag, ?collision, rfl, ?frame⟩
  case flag =>
    rw [hvf]
    exact flagByte_zero_or_one _
  case collision =>
    rw [hvf, flagByte_eq_one, hflips.hit]
    simp [State.fbRead_eq, and_comm]
  case frame =>
    refine (((s.setFb_frame _).trans (State.setV_onlyChanges _ vf _)).trans (State.advance_onlyChanges _)).mono
      fun p hp => ?_
    obtain (hpixel | hreg) | hpc := hp
    · exact .inr (.inr hpixel)
    · exact .inr (.inl (List.mem_singleton.mp hreg))
    · exact .inl (List.mem_singleton.mp hpc)

theorem drawnAt_congr {s t : State} (hi : t.i = s.i) (hbytes : ∀ a, t.byteAt a = s.byteAt a) : DrawnAt t = DrawnAt s := by
  funext x0 y0 n px py
  simp only [DrawnAt, hi, hbytes]

/-- Settles O37: both draws reach the same pixels, since the first leaves I and memory alone. -/
theorem drawTwiceRestoresTheScreen : Obligations.DrawTwiceRestoresTheScreen := by
  intro x y n s t h hfirst hx hy
  obtain ⟨t', ht', hchanged, -, -, -, hframe⟩ := drawXorsClippedSprite x y n s h
  cases ht'.symm.trans hfirst
  have hi : t.i = s.i := hframe .index (by simp)
  have hsame : DrawnAt t = DrawnAt s := drawnAt_congr hi fun a => hframe (.byte a) (by simp)
  obtain ⟨u, hu, hchanged', -, hvf, -, -⟩ := drawXorsClippedSprite x y n t (hi ▸ h)
  rw [hx, hy, hsame] at hchanged' hvf
  refine ⟨u, hu, fun px py => ?restored, hvf.trans (exists_congr fun px => exists_congr fun py => ?collision)⟩
  case restored =>
    have hboth := (hchanged' px py).trans (hchanged px py).symm
    revert hboth
    cases u.fbRead px py <;> cases t.fbRead px py <;> cases s.fbRead px py <;> decide
  case collision =>
    refine and_congr_left fun hd => ?_
    have hne := (hchanged px py).mpr hd
    revert hne
    cases t.fbRead px py <;> cases s.fbRead px py <;> decide

end Sys2Proof.Machine

/-! PROOFS. Footprints: each arm of exec writes inside the footprint of its instruction (10_state.md section 2). -/

namespace Sys2Proof.Machine

/-! ### What a footprint holds -/

theorem footprint_pc (s : State) (i : Instr) : Footprint s i .pc := .inl rfl

theorem footprint_destination {s : State} {i : Instr} {x : Reg} (h : destination i = some x) : Footprint s i (.reg x) :=
  .inr (.inl ⟨x, h, rfl⟩)

theorem footprint_flag {s : State} {i : Instr} (h : writesFlag i = true) : Footprint s i (.reg vf) :=
  .inr (.inr (.inl ⟨h, rfl⟩))

theorem footprint_reg {s : State} {i : Instr} {r : Reg} (h : Footprint s i (.reg r)) :
    destination i = some r ∨ (writesFlag i = true ∧ r = vf) ∨ ∃ x, i = .loadRegisters x ∧ r.toNat ≤ x.toNat := by
  obtain ⟨⟨⟩⟩ | ⟨x, hd, hx⟩ | ⟨hf, hr⟩ | hown := h
  · cases hx
    exact .inl hd
  · cases hr
    exact .inr (.inl ⟨hf, rfl⟩)
  · cases i with
    | loadRegisters x =>
      obtain ⟨r', hle, hr⟩ := hown
      cases hr
      exact .inr (.inr ⟨x, rfl, hle⟩)
    | _ => simp at hown

/-! ### Frames inside a footprint, by the shape of the arm -/

theorem frame_of_onlyChanges {ps : List Part} {i : Instr} {s t : State} (h : OnlyChanges ps s t)
    (hps : ∀ p ∈ ps, Footprint s i p) : Frame (Footprint s i) s t :=
  Frame.mono h hps

theorem frame_of_pc {i : Instr} {s t : State} (h : OnlyChanges [.pc] s t) : Frame (Footprint s i) s t :=
  frame_of_onlyChanges h (by simp [footprint_pc])

theorem frame_of_destination {i : Instr} {s t : State} {x : Reg} (hd : destination i = some x)
    (h : OnlyChanges [.reg x, .pc] s t) : Frame (Footprint s i) s t :=
  frame_of_onlyChanges h (by simp [footprint_pc, footprint_destination hd])

theorem frame_of_flag {i : Instr} {s t : State} {x : Reg} (hd : destination i = some x) (hf : writesFlag i = true)
    (h : OnlyChanges [.reg x, .reg vf, .pc] s t) : Frame (Footprint s i) s t :=
  frame_of_onlyChanges h (by simp [footprint_pc, footprint_destination hd, footprint_flag hf])

/-- An instruction that writes one part of its own, and PC. -/
theorem frame_of_own {i : Instr} {s t : State} {q : Part} (hq : Footprint s i q) (h : OnlyChanges [q, .pc] s t) :
    Frame (Footprint s i) s t :=
  frame_of_onlyChanges h (by simp [footprint_pc, hq])

/-- An instruction that writes, beside PC, parts its own line of the footprint names. -/
theorem frame_of_pc_or_own {i : Instr} {s t : State} {own : Part → Prop} (h : Frame (fun p => p = .pc ∨ own p) s t)
    (hown : ∀ p, own p → Footprint s i p) : Frame (Footprint s i) s t := by
  refine h.mono fun p hp => ?_
  obtain rfl | hp := hp
  · exact footprint_pc s i
  · exact hown p hp

theorem Frame.refl (w : Part → Prop) (s : State) : Frame w s s := by
  intro p _
  cases p <;> rfl

/-! ### Where an instruction that raises nothing completes -/

theorem range_of_raises_none {i : Instr} {s : State} (hr : raises s i = none) (hpos : 0 < accessLength i) :
    s.i.toNat + accessLength i ≤ 4096 := by
  by_contra hgt
  rw [raises_of_range hpos (by omega)] at hr
  cases hr

theorem exec_call_completes {s t : State} {nnn : Addr12} (hr : raises s (.call nnn) = none)
    (h : exec (.call nnn) s = .next t) : s.sp.toNat < 16 := by
  have hne : s.sp.toNat ≠ 16 := fun hsp => by simp [raises, hsp] at hr
  by_contra hlt
  rw [exec_call_of_gt nnn (by omega)] at h
  cases h

theorem exec_ret_completes {s t : State} (hr : raises s .ret = none) (h : exec .ret s = .next t) :
    0 < s.sp.toNat ∧ s.sp.toNat - 1 < 16 := by
  have hne : s.sp.toNat ≠ 0 := fun hsp => by simp [raises, hsp] at hr
  refine ⟨by omega, ?_⟩
  by_contra hlt
  rw [exec_ret_of_gt (by omega)] at h
  cases h

/-! ### Every instruction -/

/-- The two instructions that write memory. -/
def StoresBytes (i : Instr) : Prop := (∃ x, i = .storeBcd x) ∨ ∃ x, i = .storeRegisters x

theorem exec_frame {i : Instr} {s t : State} (hw : StoresBytes i → s.MemoryWf) (hr : raises s i = none)
    (h : exec i s = .next t) : Frame (Footprint s i) s t := by
  cases i with
  | setImm | addImm | setReg | orReg | andReg | xorReg | getDelay =>
    cases h
    exact frame_of_destination rfl (s.setV_onlyChanges _ _).advance
  | addReg =>
    cases h
    exact frame_of_flag rfl rfl (s.resultThenFlag_onlyChanges _ _ _).advance
  | subReg | subnReg | shiftRight | shiftLeft =>
    cases h
    exact frame_of_flag rfl rfl (s.flagThenResult_onlyChanges _ _ _).advance
  | skipIfEqual | skipIfNotEqual | skipIfRegEqual | skipIfRegNotEqual | skipIfKeyPressed | skipIfKeyNotPressed =>
    cases h
    exact frame_of_pc (s.skipIf_onlyChanges _)
  | jump | jumpOffset =>
    cases h
    exact frame_of_pc (s.setPc_onlyChanges _)
  | setIndex | addToIndex | loadFontAddress =>
    cases h
    exact frame_of_own (.inr (.inr (.inr rfl))) (s.setI_onlyChanges _).advance
  | setDelay =>
    cases h
    exact frame_of_own (.inr (.inr (.inr rfl))) (s.setDt_onlyChanges _).advance
  | setSound =>
    cases h
    exact frame_of_own (.inr (.inr (.inr rfl))) (s.setSt_onlyChanges _).advance
  | random x nn =>
    cases h
    refine frame_of_onlyChanges (randomWith_onlyChanges _ x nn s) fun p hp => ?_
    simp only [List.mem_cons, List.not_mem_nil, or_false] at hp
    obtain rfl | rfl | rfl := hp
    · exact footprint_destination rfl
    · exact .inr (.inr (.inr rfl))
    · exact footprint_pc _ _
  | waitForKey x =>
    cases hk : s.leastKey with
    | none =>
      cases (exec_waitForKey_of_none x (State.leastKey_eq_none.mp hk)).symm.trans h
      exact Frame.refl _ _
    | some k =>
      cases (exec_waitForKey_of_some x hk).symm.trans h
      exact frame_of_destination rfl (s.setV_onlyChanges _ _).advance
  | clearScreen =>
    obtain ⟨t', ht', -, -, hframe⟩ := clearScreenTurnsAllPixelsOff s
    cases ht'.symm.trans h
    exact frame_of_pc_or_own hframe fun _ hpixel => .inr (.inr (.inr hpixel))
  | draw x y n =>
    have hrange : n = 0 ∨ s.i.toNat + n.toNat - 1 ≤ 4095 := by
      rcases Nat.eq_zero_or_pos n.toNat with hn | hn
      · exact .inl (BitVec.eq_of_toNat_eq hn)
      · have hle : s.i.toNat + n.toNat ≤ 4096 := range_of_raises_none hr hn
        exact .inr (by omega)
    obtain ⟨t', ht', -, -, -, -, hframe⟩ := drawXorsClippedSprite x y n s hrange
    cases ht'.symm.trans h
    refine frame_of_pc_or_own hframe fun p hp => ?_
    obtain rfl | hpixel := hp
    · exact footprint_flag rfl
    · exact .inr (.inr (.inr hpixel))
  | call nnn =>
    have hlt := exec_call_completes hr h
    obtain ⟨t', ht', -, -, -, hframe⟩ := (callPushesOrOverflows nnn s).1 hlt
    cases ht'.symm.trans h
    refine frame_of_onlyChanges hframe fun p hp => ?_
    simp only [List.mem_cons, List.not_mem_nil, or_false] at hp
    obtain rfl | rfl | rfl := hp
    · exact .inr (.inr (.inr (.inr ⟨_, rfl, rfl⟩)))
    · exact .inr (.inr (.inr (.inl rfl)))
    · exact footprint_pc _ _
  | ret =>
    obtain ⟨hpos, hlt⟩ := exec_ret_completes hr h
    obtain ⟨t', ht', -, -, hframe⟩ := (returnPopsOrUnderflows s).1 ⟨s.sp.toNat - 1, hlt⟩ (Nat.sub_add_cancel hpos).symm
    cases ht'.symm.trans h
    exact frame_of_own (.inr (.inr (.inr rfl))) hframe
  | storeBcd x =>
    obtain ⟨t', ht', -, -, hframe⟩ := exec_stores (i := .storeBcd x) rfl rfl (hw (.inl ⟨x, rfl⟩))
      (range_of_raises_none hr (Nat.succ_pos 2))
    cases ht'.symm.trans h
    exact frame_of_pc_or_own hframe fun _ hbyte => .inr (.inr (.inr hbyte))
  | storeRegisters x =>
    have hrange : s.i.toNat + (x.toNat + 1) ≤ 4096 := range_of_raises_none hr (Nat.succ_pos _)
    obtain ⟨t', ht', -, -, hframe⟩ := exec_storeRegisters_of_le (x := x) (hw (.inr ⟨x, rfl⟩)) (by omega)
    cases ht'.symm.trans h
    exact frame_of_pc_or_own hframe fun _ hbyte => .inr (.inr (.inr hbyte))
  | loadRegisters x =>
    have hrange : s.i.toNat + (x.toNat + 1) ≤ 4096 := range_of_raises_none hr (Nat.succ_pos _)
    obtain ⟨t', ht', -, -, hframe⟩ := exec_loadRegisters_of_le (x := x) (s := s) (by omega)
    cases ht'.symm.trans h
    exact frame_of_pc_or_own hframe fun _ hreg => .inr (.inr (.inr hreg))

/-- Settles O39, by the frame of each arm. -/
theorem everyInstructionKeepsToItsFootprint : Obligations.EveryInstructionKeepsToItsFootprint :=
  fun _ _ _ hw hr h => exec_frame (fun _ => hw) hr h

/-! ### Who writes VF -/

theorem exec_store_v {i : Instr} {s t : State} (hi : StoresBytes i) (h : exec i s = .next t) : t.v = s.v := by
  have hstore : (∃ r, t = s.raise r (encode i)) ∨
      (t = { s with mem := t.mem, pc := s.pc + 2 } ∧ (s.MemoryWf → t.MemoryWf)) := by
    obtain ⟨x, rfl⟩ | ⟨x, rfl⟩ := hi
    · exact State.settle_store_next (n := 3) (bs := bcdDigits (s.getV x)) h
    · exact State.settle_store_next h
  obtain ⟨r, rfl⟩ | ⟨ht, -⟩ := hstore
  · rfl
  · rw [ht]

/-- Settles O45: a completed instruction that changes VF has it in its footprint, and a store has no register in it. -/
theorem flagChangesOnlyByItsWriters : Obligations.FlagChangesOnlyByItsWriters := by
  intro s t h hne
  obtain ⟨i, hi, hr, hexec⟩ | hkeeps := step_completes_or_keeps h
  · refine ⟨i, hi, ?_⟩
    have hnostore : ¬ StoresBytes i := fun hstore => hne (by rw [State.getV, exec_store_v hstore hexec]; rfl)
    have hfoot : Footprint s i (.reg vf) :=
      by_contra fun hout => hne (exec_frame (fun hstore => absurd hstore hnostore) hr hexec (.reg vf) hout)
    obtain hd | ⟨hf, -⟩ | ⟨x, rfl, hx⟩ := footprint_reg hfoot
    · exact .inr (.inl hd)
    · exact .inl hf
    · have hlast : x = vf := by
        have := x.isLt
        have hvf : vf.toNat = 15 := rfl
        bv_omega
      exact .inr (.inr (by rw [hlast]))
  · refine absurd ?_ hne
    rw [hkeeps]
    rfl

end Sys2Proof.Machine
